-- ==== Sys2Proof/Word.lean ====
section
/-! DEFINITION. The word types of the machine: bytes, 16-bit words, the fields of an instruction
word and the names of the sixteen general registers (00_scope R5; 10_state R11, R14, R15;
30_encoding R61). Every value is unsigned (00_scope, Notation). -/

namespace Sys2Proof

/-- The unit of addressing and the content of a general register (20_memory R40, 10_state R11). -/
abbrev Byte := BitVec 8

/-- An instruction word, the address register, the program counter, a stack entry
(30_encoding R60, 10_state R14, R15, R18). -/
abbrev Word := BitVec 16

/-- A 4-bit field of an instruction word: the group, the row count `n` (30_encoding R61). -/
abbrev Nibble := BitVec 4

/-- The 12-bit immediate address `nnn` (30_encoding R61, R63). -/
abbrev Imm12 := BitVec 12

/-- The number of a general register; every 4-bit field names a real one (10_state R11). -/
abbrev Reg := Fin 16

/-- VF, the register that doubles as the flag (10_state R13). -/
abbrev VF : Reg := 15

/-- A framebuffer pixel number `p` of `FB[p]` (10_state R20). -/
abbrev Pixel := Fin 2048

end Sys2Proof
end

