-- ==== Sys2Proof/Machine/Flags.lean ====
section
/-! DEFINITION. The flag computations (10_state R13; 42_alu R107 to R113; 43_index_memory R121). Each
is a truth value over the operands as unbounded integers; `flagByte` makes it the byte VF holds. -/

namespace Sys2Proof.Machine

/-- A flag as the byte written to VF: exactly 0 or 1 (42_alu R113). -/
def flagByte (b : Bool) : Byte := if b then 1 else 0

/-- The carry of an 8-bit addition (42_alu R107). -/
def carryOut (a b : Byte) : Bool := decide (a.toNat + b.toNat > 0xFF)

/-- No borrow in the 8-bit difference `a - b` (42_alu R108, R110). -/
def noBorrow (a b : Byte) : Bool := !decide (a.toNat < b.toNat)

/-- The bit a right shift by one drops (42_alu R109). -/
def shiftedOutRight (a : Byte) : Bool := a.getLsbD 0

/-- The bit a left shift by one drops (42_alu R111). -/
def shiftedOutLeft (a : Byte) : Bool := a.getLsbD 7

/-- The true sum of I and a byte lies beyond the last memory address (43_index_memory R121). -/
def indexOverflow (i : Word) (a : Byte) : Bool := decide (i.toNat + a.toNat > 0xFFF)

end Sys2Proof.Machine
end

