-- ==== Sys2Proof/Syntax.lean ====
section
/-! DEFINITION. The instruction set as syntax: one constructor per row of the opcode table
(30_encoding R65; `spec/opcode_table.json`), with the fields the row's format names (R61, R62).
Register fields are register numbers, so no raw register encoding reaches the machine. -/

namespace Sys2Proof

/-- The 34 instructions and the unrecognized word. -/
inductive Instr where
  /-- `00E0`, Clear screen (44_display R130). -/
  | cls
  /-- `00EE`, Return (40_control_transfer R80). -/
  | ret
  /-- `1nnn`, Jump (R81). -/
  | jp (nnn : Imm12)
  /-- `2nnn`, Call (R82). -/
  | call (nnn : Imm12)
  /-- `3xkk`, Skip if equal, immediate (41_skips R90). -/
  | seImm (x : Reg) (kk : Byte)
  /-- `4xkk`, Skip if not equal, immediate (R91). -/
  | sneImm (x : Reg) (kk : Byte)
  /-- `5xy0`, Skip if registers equal (R92). -/
  | seReg (x y : Reg)
  /-- `6xkk`, Load immediate (42_alu R101). -/
  | ldImm (x : Reg) (kk : Byte)
  /-- `7xkk`, Add immediate, no flag (R102). -/
  | addImm (x : Reg) (kk : Byte)
  /-- `8xy0`, Copy (R103). -/
  | ldReg (x y : Reg)
  /-- `8xy1`, OR (R104). -/
  | or (x y : Reg)
  /-- `8xy2`, AND (R105). -/
  | and (x y : Reg)
  /-- `8xy3`, XOR (R106). -/
  | xor (x y : Reg)
  /-- `8xy4`, Add registers, VF = carry (R107). -/
  | addReg (x y : Reg)
  /-- `8xy5`, Subtract, VF = not borrow (R108). -/
  | sub (x y : Reg)
  /-- `8xy6`, Shift right; `y` is ignored by the meaning (R109, 30_encoding R69) and kept here so that
  no bit of the word is lost (log 18). -/
  | shr (x y : Reg)
  /-- `8xy7`, Reverse subtract, VF = not borrow (R110). -/
  | subn (x y : Reg)
  /-- `8xyE`, Shift left; `y` is ignored by the meaning (R111, 30_encoding R69) and kept (log 18). -/
  | shl (x y : Reg)
  /-- `9xy0`, Skip if registers not equal (41_skips R93). -/
  | sneReg (x y : Reg)
  /-- `Annn`, Set address register (43_index_memory R120). -/
  | ldI (nnn : Imm12)
  /-- `Bnnn`, Jump with offset V0 (40_control_transfer R83). -/
  | jpV0 (nnn : Imm12)
  /-- `Cxkk`, Randomize (42_alu R114). -/
  | rnd (x : Reg) (kk : Byte)
  /-- `Dxyn`, Draw sprite of `n` rows (44_display R132). -/
  | drw (x y : Reg) (n : Nibble)
  /-- `Ex9E`, Skip if key pressed (45_keypad_timers R140). -/
  | skp (x : Reg)
  /-- `ExA1`, Skip if key not pressed (R141). -/
  | sknp (x : Reg)
  /-- `Fx07`, Read delay timer (R143). -/
  | ldVxDt (x : Reg)
  /-- `Fx0A`, Wait for key (R142). -/
  | ldVxK (x : Reg)
  /-- `Fx15`, Set delay timer (R144). -/
  | ldDtVx (x : Reg)
  /-- `Fx18`, Set sound timer (R145). -/
  | ldStVx (x : Reg)
  /-- `Fx1E`, Add to I, VF = overflow past 0xFFF (43_index_memory R121). -/
  | addI (x : Reg)
  /-- `Fx29`, Font address (R122). -/
  | ldF (x : Reg)
  /-- `Fx33`, BCD store (R123). -/
  | ldB (x : Reg)
  /-- `Fx55`, Block store (R124). -/
  | stRegs (x : Reg)
  /-- `Fx65`, Block load (R125). -/
  | ldRegs (x : Reg)
  /-- Any other word, Unrecognized opcode (46_unrecognized R150). -/
  | unk (op : Word)
  deriving DecidableEq, Repr

end Sys2Proof
end

