-- ==== Sys2Proof/Decode.lean ====
section
/-! DEFINITION. Decoding and encoding (30_encoding R60 to R69). `decodeWord` is the case algorithm
of R67; `opcodeTable` is the match/mask table of R65, which says independently which words are
recognized (R66); `encode` writes an instruction's word by the formats of R62. The numbers are the
spec's general-knowledge map (log 5). -/

namespace Sys2Proof

/-! ## The fields of an instruction word (30_encoding R61) -/

/-- `g = op[15:12]`, the primary selector. -/
def fieldG (op : Word) : Nibble := op.extractLsb' 12 4

/-- `x = op[11:8]`, a register number. -/
def fieldX (op : Word) : Reg := (op.extractLsb' 8 4).toFin

/-- `y = op[7:4]`, a register number. -/
def fieldY (op : Word) : Reg := (op.extractLsb' 4 4).toFin

/-- `n = op[3:0]`, a row count or secondary selector. -/
def fieldN (op : Word) : Nibble := op.extractLsb' 0 4

/-- `kk = op[7:0]`, an immediate byte or secondary selector. -/
def fieldKK (op : Word) : Byte := op.extractLsb' 0 8

/-- `nnn = op[11:0]`, an immediate address. -/
def fieldNNN (op : Word) : Imm12 := op.extractLsb' 0 12

/-! ## Decoding one word (30_encoding R67) -/

/-- Group 0: `00E0` and `00EE`, matched on all 16 bits (R66). -/
def decodeGroup0 (op : Word) : Instr :=
  if op = 0x00E0#16 then .cls else if op = 0x00EE#16 then .ret else .unk op

/-- Group 8: the register-to-register operations, selected by the low nibble. -/
def decodeGroup8 (op : Word) : Instr :=
  match (fieldN op).toNat with
  | 0x0 => .ldReg (fieldX op) (fieldY op)
  | 0x1 => .or (fieldX op) (fieldY op)
  | 0x2 => .and (fieldX op) (fieldY op)
  | 0x3 => .xor (fieldX op) (fieldY op)
  | 0x4 => .addReg (fieldX op) (fieldY op)
  | 0x5 => .sub (fieldX op) (fieldY op)
  | 0x6 => .shr (fieldX op) (fieldY op)
  | 0x7 => .subn (fieldX op) (fieldY op)
  | 0xE => .shl (fieldX op) (fieldY op)
  | _ => .unk op

/-- Group E: the key skips, selected by the low byte. -/
def decodeGroupE (op : Word) : Instr :=
  match (fieldKK op).toNat with
  | 0x9E => .skp (fieldX op)
  | 0xA1 => .sknp (fieldX op)
  | _ => .unk op

/-- Group F: timers, key wait, address register and memory, selected by the low byte. -/
def decodeGroupF (op : Word) : Instr :=
  match (fieldKK op).toNat with
  | 0x07 => .ldVxDt (fieldX op)
  | 0x0A => .ldVxK (fieldX op)
  | 0x15 => .ldDtVx (fieldX op)
  | 0x18 => .ldStVx (fieldX op)
  | 0x1E => .addI (fieldX op)
  | 0x29 => .ldF (fieldX op)
  | 0x33 => .ldB (fieldX op)
  | 0x55 => .stRegs (fieldX op)
  | 0x65 => .ldRegs (fieldX op)
  | _ => .unk op

/-- `Decode(op)` of 30_encoding R67: total, reads no state, raises nothing. A word that matches no
instruction is the unrecognized word that carries it (R68). -/
def decodeWord (op : Word) : Instr :=
  match (fieldG op).toNat with
  | 0x0 => decodeGroup0 op
  | 0x1 => .jp (fieldNNN op)
  | 0x2 => .call (fieldNNN op)
  | 0x3 => .seImm (fieldX op) (fieldKK op)
  | 0x4 => .sneImm (fieldX op) (fieldKK op)
  | 0x5 => if fieldN op = 0 then .seReg (fieldX op) (fieldY op) else .unk op
  | 0x6 => .ldImm (fieldX op) (fieldKK op)
  | 0x7 => .addImm (fieldX op) (fieldKK op)
  | 0x8 => decodeGroup8 op
  | 0x9 => if fieldN op = 0 then .sneReg (fieldX op) (fieldY op) else .unk op
  | 0xA => .ldI (fieldNNN op)
  | 0xB => .jpV0 (fieldNNN op)
  | 0xC => .rnd (fieldX op) (fieldKK op)
  | 0xD => .drw (fieldX op) (fieldY op) (fieldN op)
  | 0xE => decodeGroupE op
  | _ => decodeGroupF op

/-! ## Decoding bytes (30_encoding R60) -/

/-- Why bytes were not decoded. Every 16-bit word decodes, so the only reason is a word cut short. -/
inductive DecodeRefusal where
  /-- Fewer than the two bytes of an instruction word (R60). -/
  | truncated
  deriving DecidableEq, Repr

/-- The word of two bytes, the first byte high (30_encoding R60, 20_memory R46). -/
def bytesToWord (hi lo : Byte) : Word := hi ++ lo

/-- The high byte of a word, which stands at the lower address (20_memory R46). -/
def hiByte (w : Word) : Byte := w.extractLsb' 8 8

/-- The low byte of a word. -/
def loByte (w : Word) : Byte := w.extractLsb' 0 8

/-- The first instruction of a byte stream and the bytes after it, or a refusal by name. -/
def decode : List Byte → Except DecodeRefusal (Instr × List Byte)
  | hi :: lo :: rest => .ok (decodeWord (bytesToWord hi lo), rest)
  | _ => .error .truncated

/-! ## The opcode map as a table (30_encoding R65) -/

/-- One row of the opcode map: `op` is this instruction exactly when `op & mask = match`. -/
structure OpcodeRow where
  name : String
  pattern : Word
  mask : Word
  deriving DecidableEq, Repr

/-- The word matches the row under the row's mask (R65, R66). -/
def OpcodeRow.accepts (r : OpcodeRow) (op : Word) : Bool := op &&& r.mask == r.pattern

/-- Rows 1 to 19 of R65 (groups 0 to 9). -/
def opcodeTableLow : List OpcodeRow := [
  ⟨"CLS", 0x00E0#16, 0xFFFF#16⟩,
  ⟨"RET", 0x00EE#16, 0xFFFF#16⟩,
  ⟨"JP", 0x1000#16, 0xF000#16⟩,
  ⟨"CALL", 0x2000#16, 0xF000#16⟩,
  ⟨"SE_IMM", 0x3000#16, 0xF000#16⟩,
  ⟨"SNE_IMM", 0x4000#16, 0xF000#16⟩,
  ⟨"SE_REG", 0x5000#16, 0xF00F#16⟩,
  ⟨"LD_IMM", 0x6000#16, 0xF000#16⟩,
  ⟨"ADD_IMM", 0x7000#16, 0xF000#16⟩,
  ⟨"LD_REG", 0x8000#16, 0xF00F#16⟩,
  ⟨"OR", 0x8001#16, 0xF00F#16⟩,
  ⟨"AND", 0x8002#16, 0xF00F#16⟩,
  ⟨"XOR", 0x8003#16, 0xF00F#16⟩,
  ⟨"ADD_REG", 0x8004#16, 0xF00F#16⟩,
  ⟨"SUB", 0x8005#16, 0xF00F#16⟩,
  ⟨"SHR", 0x8006#16, 0xF00F#16⟩,
  ⟨"SUBN", 0x8007#16, 0xF00F#16⟩,
  ⟨"SHL", 0x800E#16, 0xF00F#16⟩,
  ⟨"SNE_REG", 0x9000#16, 0xF00F#16⟩]

/-- Rows 20 to 34 of R65 (groups A to F). -/
def opcodeTableHigh : List OpcodeRow := [
  ⟨"LD_I", 0xA000#16, 0xF000#16⟩,
  ⟨"JP_V0", 0xB000#16, 0xF000#16⟩,
  ⟨"RND", 0xC000#16, 0xF000#16⟩,
  ⟨"DRW", 0xD000#16, 0xF000#16⟩,
  ⟨"SKP", 0xE09E#16, 0xF0FF#16⟩,
  ⟨"SKNP", 0xE0A1#16, 0xF0FF#16⟩,
  ⟨"LD_VX_DT", 0xF007#16, 0xF0FF#16⟩,
  ⟨"LD_VX_K", 0xF00A#16, 0xF0FF#16⟩,
  ⟨"LD_DT_VX", 0xF015#16, 0xF0FF#16⟩,
  ⟨"LD_ST_VX", 0xF018#16, 0xF0FF#16⟩,
  ⟨"ADD_I", 0xF01E#16, 0xF0FF#16⟩,
  ⟨"LD_F", 0xF029#16, 0xF0FF#16⟩,
  ⟨"LD_B", 0xF033#16, 0xF0FF#16⟩,
  ⟨"ST_REGS", 0xF055#16, 0xF0FF#16⟩,
  ⟨"LD_REGS", 0xF065#16, 0xF0FF#16⟩]

/-- The 34 recognized rows of R65. -/
def opcodeTable : List OpcodeRow := opcodeTableLow ++ opcodeTableHigh

/-- The word matches one of rows 1 to 34 (R66). -/
def recognized (op : Word) : Bool := opcodeTable.any fun r => r.accepts op

/-! ## Encoding (30_encoding R62, R65) -/

/-- A register number as a 4-bit field. -/
def regField (x : Reg) : Nibble := BitVec.ofNat 4 x.val

/-- Format NNN: `{g, nnn}`. -/
def wordNNN (g : Nibble) (nnn : Imm12) : Word := g ++ nnn

/-- Formats XKK and XSS: `{g, x, kk}`; in XSS `kk` is the fixed selector. -/
def wordXKK (g : Nibble) (x : Reg) (kk : Byte) : Word := g ++ (regField x ++ kk : BitVec 12)

/-- Formats XYN and XYS: `{g, x, y, n}`; in XYS `n` is the fixed selector. -/
def wordXYN (g : Nibble) (x y : Reg) (n : Nibble) : Word :=
  g ++ (regField x ++ (regField y ++ n : BitVec 8) : BitVec 12)

/-- The instruction word of an instruction. -/
def encode : Instr → Word
  | .cls => 0x00E0#16
  | .ret => 0x00EE#16
  | .jp nnn => wordNNN 0x1 nnn
  | .call nnn => wordNNN 0x2 nnn
  | .seImm x kk => wordXKK 0x3 x kk
  | .sneImm x kk => wordXKK 0x4 x kk
  | .seReg x y => wordXYN 0x5 x y 0x0
  | .ldImm x kk => wordXKK 0x6 x kk
  | .addImm x kk => wordXKK 0x7 x kk
  | .ldReg x y => wordXYN 0x8 x y 0x0
  | .or x y => wordXYN 0x8 x y 0x1
  | .and x y => wordXYN 0x8 x y 0x2
  | .xor x y => wordXYN 0x8 x y 0x3
  | .addReg x y => wordXYN 0x8 x y 0x4
  | .sub x y => wordXYN 0x8 x y 0x5
  | .shr x y => wordXYN 0x8 x y 0x6
  | .subn x y => wordXYN 0x8 x y 0x7
  | .shl x y => wordXYN 0x8 x y 0xE
  | .sneReg x y => wordXYN 0x9 x y 0x0
  | .ldI nnn => wordNNN 0xA nnn
  | .jpV0 nnn => wordNNN 0xB nnn
  | .rnd x kk => wordXKK 0xC x kk
  | .drw x y n => wordXYN 0xD x y n
  | .skp x => wordXKK 0xE x 0x9E
  | .sknp x => wordXKK 0xE x 0xA1
  | .ldVxDt x => wordXKK 0xF x 0x07
  | .ldVxK x => wordXKK 0xF x 0x0A
  | .ldDtVx x => wordXKK 0xF x 0x15
  | .ldStVx x => wordXKK 0xF x 0x18
  | .addI x => wordXKK 0xF x 0x1E
  | .ldF x => wordXKK 0xF x 0x29
  | .ldB x => wordXKK 0xF x 0x33
  | .stRegs x => wordXKK 0xF x 0x55
  | .ldRegs x => wordXKK 0xF x 0x65
  | .unk op => op

/-- The two bytes of an instruction as memory holds them, the high byte at the lower address. -/
def encodeBytes (i : Instr) : List Byte := [hiByte (encode i), loByte (encode i)]

/-! ## The opcode table's own bit numbering -/

/-- The word of a table row given as `nbits` bits of `w`, the bits above `nbits` zero. -/
def tableWord (nbits w : Nat) : Word := BitVec.ofNat 16 (w % 2 ^ nbits)

/-- What the decoder reads from the word `w` of `nbits` bits, laid out in memory order. -/
def decodeTableWord (nbits w : Nat) : Option Instr :=
  match decode [hiByte (tableWord nbits w), loByte (tableWord nbits w)] with
  | .ok (i, _) => some i
  | .error _ => none

end Sys2Proof
end

