-- ==== Sys2Proof/Config.lean ====
section
/-! DEFINITION. What the implementation fixes (00_scope R5, the rows marked fixed), and the one free
value of the machine: the random byte of a Randomize whose `rnd` input nobody fixed. -/

namespace Sys2Proof.Config

/-- The number of bytes of memory (00_scope R5, 20_memory R40). -/
def memSize : Nat := 4096

/-- The program base and entry point (00_scope R5, 20_memory R42). -/
def progBase : Nat := 0x200

/-- The largest program image in bytes (70_reset_and_hazards R191). -/
def progMax : Nat := 3584

/-- DESIGN CHOICE (log 3), safe. The k-th random byte that the host left open: nothing constrains it
(42_alu R114: "the model must treat it as a free byte"). It has no body, so no proof can learn a value. -/
opaque freeRandomByte : Nat → Byte

end Sys2Proof.Config
end

