-- ==== Sys2Proof/Machine/State.lean ====
section
/-! DEFINITION. The machine's state (10_state R10 to R27) under the spec's own names, the host's
transitions (00_scope R6, R7), the result port of a transition (60_exceptions R160, R165), the
reasons a step can stop, and the state after reset (10_state R26). -/

namespace Sys2Proof.Machine

/-- Memory as the list of the bytes that differ from the reset contents without a program, by rising
address (20_memory R40, R42). Its canonical form is `Memory.wf` (Machine/Memory.lean). -/
abbrev Memory := List Host.Cell

/-- The framebuffer: 32 rows of 64 one-bit pixels (10_state R20). Bit c of row r is the pixel in
column c of row r. -/
abbrev Framebuffer := Vector (BitVec 64) 32

/-- The sixteen keypad lines; line k is true when key k is pressed (10_state R22). -/
abbrev Keys := Vector Bool 16

/-- One transition the host invokes (00_scope R6; 70_reset_and_hazards R199). -/
inductive HostEvent where
  /-- `Reset(PROGRAM)` (70_reset_and_hazards R190, R191). -/
  | reset (program : List Byte)
  /-- `Step(K, rnd)`: the keypad lines it samples and its random byte; `none` leaves the byte a free
  value (00_scope R6; 42_alu R114; log 3). -/
  | step (keys : Keys) (rnd : Option Byte)
  /-- `Tick()` (60_exceptions R172). -/
  | tick
  deriving DecidableEq, Repr

/-- Why a Step ended in a fault (60_exceptions R162, R163), with the information of R165. A faulting
Step changes no state (R166), so the state before it is the state after it. All are safe: they are
the spec's own faults. -/
inductive Fault where
  /-- MemoryFault, sub-cause 0: the fetch, when `pc + 1 > 0xFFF` (20_memory R45). Carries pc and the
  first address above 0xFFF. Raised by the fetch of any step; safe. -/
  | memoryFetch (pc : Word) (addr : Nat)
  /-- MemoryFault, sub-cause 1: a data access of DRW, LD_B, ST_REGS or LD_REGS beyond 0xFFF
  (20_memory R49). Carries pc, the instruction word and the first address above 0xFFF; safe. -/
  | memoryData (pc op : Word) (addr : Nat)
  /-- StackFault, sub-cause 0: CALL with sp = 16 (40_control_transfer R82). Carries pc, the
  instruction word and sp; safe. -/
  | stackOverflow (pc op : Word) (sp : Fin 17)
  /-- StackFault, sub-cause 1: RET with sp = 0 (40_control_transfer R80). Carries pc, the instruction
  word and sp; safe. -/
  | stackUnderflow (pc op : Word) (sp : Fin 17)
  deriving DecidableEq, Repr

/-- Why the model has no meaning for a transition. -/
inductive Refusal where
  /-- An instruction with no meaning yet, by its mnemonic; raised by `exec` only; safe. No arm of
  `exec` is left with it. -/
  | notModelled (mnemonic : String)
  /-- A Reset with an image of more than 3584 bytes, for which the spec defines no transition
  (60_exceptions R164; 70_reset_and_hazards R191; log 22); raised by that host event only; safe. -/
  | imageTooLong (length : Nat)
  deriving DecidableEq, Repr

/-- The result port of the last transition (00_scope R7 `outcome` and `beep`; 60_exceptions R160,
R165, R172). It is the model's own field, not architectural state: no instruction reads it and
every transition overwrites it (log 4). -/
inductive Report where
  /-- A Reset; it emits no event (70_reset_and_hazards R190). -/
  | wasReset
  /-- Ok: one recognized instruction was executed. -/
  | ok
  /-- Ok with the diagnostic UnknownOpcode: pc before the advance, and the word (46_unrecognized R150). -/
  | unknownOpcode (pc op : Word)
  /-- Suspended: Wait for key found no key pressed; the address of the instruction (R142). -/
  | suspended (pc : Word)
  /-- A fault; only `transition` writes it, since `step` ends in the fault itself (log 6). -/
  | faulted (f : Fault)
  /-- A Tick, and whether it emitted the beep event (R172, R173). -/
  | ticked (beep : Bool)
  /-- A Reset that is not defined: only `transition` writes it (log 6). -/
  | rejected (r : Refusal)
  deriving DecidableEq, Repr

/-- The state: the spec's record (10_state R10) under its names, then the boundary inputs and the
model's own fields (log 2, 3, 4). -/
@[ext]
structure State where
  /-- Memory `M[0..4095]` (20_memory R40). -/
  M : Memory
  /-- The general registers `V[0..15]`; `V[15]` is VF (10_state R11, R13). -/
  V : Vector Byte 16
  /-- The address register (10_state R14). -/
  I : Word
  /-- The program counter (10_state R15). -/
  pc : Word
  /-- The call stack slots `S[0..15]` (10_state R18). -/
  S : Vector Word 16
  /-- The number of stack entries in use, 0..16 (10_state R18; log 19). -/
  sp : Fin 17
  /-- The framebuffer (10_state R20). -/
  FB : Framebuffer
  /-- The delay timer (10_state R21). -/
  DT : Byte
  /-- The sound timer (10_state R21). -/
  ST : Byte
  /-- The keypad lines, written by the host only (10_state R22). -/
  K : Keys
  /-- The input `rnd` of the Step now running; `none` leaves it open (00_scope R7; log 3). -/
  rnd : Option Byte
  /-- How many free random bytes have been used so far (log 3). -/
  draws : Nat
  /-- The host's transitions still to come, oldest first (70_reset_and_hazards R197; log 2). -/
  schedule : List HostEvent
  /-- The result port of the last transition (log 4). -/
  report : Report
  deriving DecidableEq, Repr

/-- The state after a Reset with the empty program (10_state R26; 70_reset_and_hazards R190): nothing
is listed in memory, so it holds the font and zeros (log 1, 20). The last four fields are the
model's own (log 2, 3, 4). -/
def State.reset : State where
  M := []
  V := Vector.replicate 16 0
  I := 0
  pc := 0x200
  S := Vector.replicate 16 0
  sp := 0
  FB := Vector.replicate 32 0
  DT := 0
  ST := 0
  K := Vector.replicate 16 false
  rnd := none
  draws := 0
  schedule := []
  report := .wasReset

/-- The three outcomes of a step or a meaning, over this machine's types. -/
abbrev Result := Host.Outcome State Fault Refusal

end Sys2Proof.Machine
end

