-- ==== Sys2Proof/Machine/Memory.lean ====
section
/-! DEFINITION. Memory (20_memory R40 to R56): the font table, what an unlisted address reads as, the
canonical form, and the byte operations every wider access is built from. -/

namespace Sys2Proof.Machine

/-! ## The reset contents -/

/-- The glyphs 0 to 7 (20_memory R43; log 7). -/
def fontLow : List Byte := [
  0xF0, 0x90, 0x90, 0x90, 0xF0,
  0x20, 0x60, 0x20, 0x20, 0x70,
  0xF0, 0x10, 0xF0, 0x80, 0xF0,
  0xF0, 0x10, 0xF0, 0x10, 0xF0,
  0x90, 0x90, 0xF0, 0x10, 0x10,
  0xF0, 0x80, 0xF0, 0x10, 0xF0,
  0xF0, 0x80, 0xF0, 0x90, 0xF0,
  0xF0, 0x10, 0x20, 0x40, 0x40]

/-- The glyphs 8 to F (20_memory R43; log 7). -/
def fontHigh : List Byte := [
  0xF0, 0x90, 0xF0, 0x90, 0xF0,
  0xF0, 0x90, 0xF0, 0x10, 0xF0,
  0xF0, 0x90, 0xF0, 0x90, 0x90,
  0xE0, 0x90, 0xE0, 0x90, 0xE0,
  0xF0, 0x80, 0x80, 0x80, 0xF0,
  0xE0, 0x90, 0x90, 0x90, 0xE0,
  0xF0, 0x80, 0xF0, 0x80, 0xF0,
  0xF0, 0x80, 0xF0, 0x80, 0x80]

/-- UNVERIFIED (log 7), unsafe. The 80 bytes of the font, byte r of digit d at `5*d + r`
(20_memory R43, "from general knowledge, not in source"). -/
def FONT : List Byte := fontLow ++ fontHigh

/-- What an address that memory does not list reads as: the reset contents without a program
(10_state R26; 20_memory R42). -/
def Memory.unlisted (a : Nat) : Byte := FONT.getD a 0

/-! ## The canonical form -/

/-- Every listed address is above `lo`, in the address space and rising, and no listed byte is the one
the address reads as unlisted. -/
def Memory.wfFrom : Nat → Memory → Bool
  | _, [] => true
  | lo, (a, b) :: m =>
    decide (lo ≤ a) && decide (a < Config.memSize) && (b != Memory.unlisted a) && Memory.wfFrom (a + 1) m

/-- The canonical form of memory: equal memories are equal lists. -/
def Memory.wf (m : Memory) : Bool := Memory.wfFrom 0 m

/-! ## Bytes -/

/-- The byte at an address (20_memory R44, "return M[addr]"). -/
def Memory.read : Memory → Nat → Byte
  | [], a => Memory.unlisted a
  | (a', b) :: m, a => if a = a' then b else Memory.read m a

/-- List the byte `v` at `a` before the cells `m`, unless `a` reads as `v` without it. -/
def Memory.cons (a : Nat) (v : Byte) (m : Memory) : Memory :=
  if v = Memory.unlisted a then m else (a, v) :: m

/-- Write a byte (20_memory R44, "M[addr] <- v"), keeping the canonical form. -/
def Memory.write : Memory → Nat → Byte → Memory
  | [], a, v => Memory.cons a v []
  | (a', b) :: m, a, v =>
    if a < a' then Memory.cons a v ((a', b) :: m)
    else if a = a' then Memory.cons a v m
    else (a', b) :: Memory.write m a v

/-- The `n` bytes at `a`, `a + 1`, … (20_memory R46). -/
def Memory.readBytes (m : Memory) (a : Nat) : Nat → List Byte
  | 0 => []
  | n + 1 => m.read a :: Memory.readBytes m (a + 1) n

/-- Write bytes at `a`, `a + 1`, … in ascending order (20_memory R46, R52). -/
def Memory.writeBytes (m : Memory) (a : Nat) : List Byte → Memory
  | [] => m
  | b :: bs => Memory.writeBytes (m.write a b) (a + 1) bs

/-! ## Bound checks -/

/-- The lowest address above 0xFFF of the `n` bytes from `a`, or `none` when all are in memory
(20_memory R44, R49; 60_exceptions R165; log 14). Addresses are unbounded and never wrap. -/
def firstOutside (a n : Nat) : Option Nat :=
  if n = 0 then none
  else if a + n ≤ Config.memSize then none
  else if a < Config.memSize then some Config.memSize
  else some a

/-- `MemRead(addr, 2)` of 20_memory R44, big-endian; the error is the faulting address. -/
def Memory.readWord (m : Memory) (a : Nat) : Except Nat Word :=
  match firstOutside a 2 with
  | some bad => .error bad
  | none => .ok (bytesToWord (m.read a) (m.read (a + 1)))

end Sys2Proof.Machine
end

