-- ==== Sys2Proof/Machine/Operands.lean ====
section
/-! DEFINITION. The operand forms (30_encoding R63; 43_index_memory R126): register operands, the
12-bit address, the key a register names, the random byte, the digits of a BCD store, and the
registers a block access names. No meaning reads a raw field. -/

namespace Sys2Proof.Machine

/-- `V[x]` (10_state R11). -/
def State.getV (s : State) (x : Reg) : Byte := s.V[x]

/-- `V[x] <- b` (10_state R11); no register is hardwired. -/
def State.setV (s : State) (x : Reg) (b : Byte) : State := { s with V := s.V.set x b }

/-- `nnn` as an address, zero-extended to 16 bits (30_encoding R63). -/
def addressOf (nnn : Imm12) : Word := nnn.setWidth 16

/-- The key line a byte names: its low 4 bits (45_keypad_timers R146; log 12). -/
def keyNumber (a : Byte) : Reg := (a.extractLsb' 0 4).toFin

/-- Key `k` is pressed (10_state R22). -/
def State.keyDown (s : State) (k : Reg) : Bool := s.K[k]

/-- The smallest pressed key, if any (45_keypad_timers R142; log 13). -/
def State.lowestKey (s : State) : Option Reg := (List.finRange 16).find? fun k => s.keyDown k

/-- A key number as the byte a register receives (45_keypad_timers R142, R146). -/
def keyByte (k : Reg) : Byte := BitVec.ofNat 8 k.val

/-- The random byte of this Step: the host's, or a free value (42_alu R114; log 3). -/
def State.randomByte (s : State) : Byte :=
  match s.rnd with
  | some b => b
  | none => Config.freeRandomByte s.draws

/-- Count a free random byte as used, so that the next one is another (log 3). -/
def State.drawRandom (s : State) : State :=
  { s with draws := if s.rnd.isSome then s.draws else s.draws + 1 }

/-- The hundreds, tens and ones of a byte, each a byte 0..9 (43_index_memory R123). -/
def bcdDigits (a : Byte) : List Byte :=
  [BitVec.ofNat 8 (a.toNat / 100), BitVec.ofNat 8 (a.toNat / 10 % 10), BitVec.ofNat 8 (a.toNat % 10)]

/-- The contents of V0..Vx in order, `x + 1` bytes (43_index_memory R124). -/
def State.firstRegs (s : State) (x : Reg) : List Byte := s.V.toList.take (x.val + 1)

/-- The registers after V0..Vx are loaded from `M[a], M[a+1], …` (43_index_memory R125). -/
def State.loadedRegs (s : State) (x : Reg) (a : Nat) : Vector Byte 16 :=
  Vector.ofFn fun r => if r.val ≤ x.val then s.M.read (a + r.val) else s.V[r]

end Sys2Proof.Machine
end

