-- ==== Sys2Proof/Machine/Ops.lean ====
section
/-! DEFINITION. The shared operations of the meanings: how an instruction ends (10_state R16), register
results with a flag (42_alu R100), the call stack (10_state R19), checked data accesses (20_memory
R44, R50), the fetch (20_memory R45), and taking a fault (60_exceptions R165, R166, R169): this
machine's only exceptions, which save nothing, go nowhere and are the outcome of the Step itself. -/

namespace Sys2Proof.Machine

/-! ## Ends of an instruction (10_state R16) -/

/-- The Step is Ok and execution goes on at `target`. -/
def State.goto (s : State) (target : Word) : State := { s with pc := target, report := .ok }

/-- The Step is Ok and pc advances by 2. -/
def State.advance (s : State) : State := s.goto (s.pc + 2)

/-- A skip: pc advances by 4 when the condition holds, else by 2; the word passed over is not looked
at (41_skips R94). -/
def State.skipIf (s : State) (cond : Bool) : State := s.goto (if cond then s.pc + 4 else s.pc + 2)

/-- The Step is suspended: nothing changes but the result port (45_keypad_timers R142). -/
def State.suspend (s : State) : State := { s with report := .suspended s.pc }

/-- The Step ran an unrecognized word: pc + 2 and the diagnostic event (46_unrecognized R150). -/
def State.advanceUnknown (s : State) (op : Word) : State :=
  { s with pc := s.pc + 2, report := .unknownOpcode s.pc op }

/-! ## Register results (42_alu R100) -/

/-- Write a result to `V[x]` and end the instruction; no flag. -/
def finishReg (s : State) (x : Reg) (result : Byte) : Result := .next (s.setV x result).advance

/-- Write a result to `V[x]`, then the flag to VF, and end the instruction. The flag is written last,
so when x = 0xF the register holds the flag (42_alu R100; log 10). -/
def finishRegFlag (s : State) (x : Reg) (result : Byte) (flag : Bool) : Result :=
  .next ((s.setV x result).setV VF (flagByte flag)).advance

/-! ## Taking a fault (60_exceptions R165, R166, R169)

A raise ends the Step with the fault and its information; the state is not part of the outcome, since
it is the state before the Step. There is no return from a fault (R170). -/

/-- The code and the sub-cause of a fault on the outcome port (60_exceptions R165). -/
def Fault.codes : Fault → Nat × Nat
  | .memoryFetch _ _ => (2, 0)
  | .memoryData _ _ _ => (2, 1)
  | .stackOverflow _ _ _ => (3, 0)
  | .stackUnderflow _ _ _ => (3, 1)

/-- The code of a Step on the outcome port; the other transitions have none (60_exceptions R165). -/
def Report.code : Report → Option Nat
  | .ok | .unknownOpcode _ _ => some 0
  | .suspended _ => some 1
  | .faulted f => some f.codes.1
  | .wasReset | .ticked _ | .rejected _ => none

/-- MemoryFault at the fetch (20_memory R45). -/
def raiseFetch (s : State) (addr : Nat) : Result := .fault (.memoryFetch s.pc addr)

/-- MemoryFault at a data access of the instruction `i`. -/
def raiseData (s : State) (i : Instr) (addr : Nat) : Result := .fault (.memoryData s.pc (encode i) addr)

/-- StackFault, overflow, at the instruction `i`. -/
def raiseOverflow (s : State) (i : Instr) : Result := .fault (.stackOverflow s.pc (encode i) s.sp)

/-- StackFault, underflow, at the instruction `i`. -/
def raiseUnderflow (s : State) (i : Instr) : Result := .fault (.stackUnderflow s.pc (encode i) s.sp)

/-! ## The call stack (10_state R19) -/

/-- `Push(v)`: the state with `v` on the stack, or `none` when sp = 16. -/
def State.push (s : State) (v : Word) : Option State :=
  if h : s.sp.val < 16 then
    some { s with S := s.S.set s.sp.val v, sp := ⟨s.sp.val + 1, Nat.succ_lt_succ h⟩ }
  else none

/-- `Pop()`: the newest entry and the state without it, or `none` when sp = 0. The slot keeps its value
(10_state R19). -/
def State.pop (s : State) : Option (Word × State) :=
  if h : 0 < s.sp.val then
    some (s.S[s.sp.val - 1]'(by omega), { s with sp := ⟨s.sp.val - 1, by omega⟩ })
  else none

/-! ## Checked data accesses (20_memory R44, R50) -/

/-- Check the `n` bytes from I before anything is written, and go on only when all are in memory
(log 14). -/
def withData (s : State) (i : Instr) (n : Nat) (go : Result) : Result :=
  match firstOutside s.I.toNat n with
  | some addr => raiseData s i addr
  | none => go

/-- Write bytes from I on, the font area included (20_memory R51; log 23). -/
def State.storeAtI (s : State) (bytes : List Byte) : State :=
  { s with M := s.M.writeBytes s.I.toNat bytes }

/-- `I <- (I + k) mod 65536` (43_index_memory R124, R125; log 15). -/
def State.advanceI (s : State) (k : Nat) : State := { s with I := s.I + BitVec.ofNat 16 k }

/-! ## Fetch (20_memory R45) -/

/-- The instruction word at pc, or the faulting address. -/
def State.fetch (s : State) : Except Nat Word := s.M.readWord s.pc.toNat

end Sys2Proof.Machine
end

