-- ==== Sys2Proof/Machine/Alu.lean ====
section
/-! DEFINITION. Register load, arithmetic, logic, shifts and random (42_alu R100 to R114). Operands are
read from the state before the instruction; results wrap modulo 256 by the byte type (R112). -/

namespace Sys2Proof.Machine

/-- Load immediate (R101). -/
def execLdImm (x : Reg) (kk : Byte) (s : State) : Result := finishReg s x kk

/-- Add immediate (R102): wraps, and VF is not a flag here. -/
def execAddImm (x : Reg) (kk : Byte) (s : State) : Result := finishReg s x (s.getV x + kk)

/-- Copy (R103). -/
def execLdReg (x y : Reg) (s : State) : Result := finishReg s x (s.getV y)

/-- OR (R104): VF is not reset. -/
def execOr (x y : Reg) (s : State) : Result := finishReg s x (s.getV x ||| s.getV y)

/-- AND (R105). -/
def execAnd (x y : Reg) (s : State) : Result := finishReg s x (s.getV x &&& s.getV y)

/-- XOR (R106). -/
def execXor (x y : Reg) (s : State) : Result := finishReg s x (s.getV x ^^^ s.getV y)

/-- Add registers (R107): VF = carry out. -/
def execAddReg (x y : Reg) (s : State) : Result :=
  finishRegFlag s x (s.getV x + s.getV y) (carryOut (s.getV x) (s.getV y))

/-- Subtract (R108): VF = no borrow of V[x] - V[y]. -/
def execSub (x y : Reg) (s : State) : Result :=
  finishRegFlag s x (s.getV x - s.getV y) (noBorrow (s.getV x) (s.getV y))

/-- Shift right (R109): V[x] alone, logical; VF = old bit 0; `y` is ignored (log 11). -/
def execShr (x _y : Reg) (s : State) : Result :=
  finishRegFlag s x (s.getV x >>> 1) (shiftedOutRight (s.getV x))

/-- Reverse subtract (R110): V[y] - V[x]; VF = no borrow of it. -/
def execSubn (x y : Reg) (s : State) : Result :=
  finishRegFlag s x (s.getV y - s.getV x) (noBorrow (s.getV y) (s.getV x))

/-- Shift left (R111): V[x] alone; VF = old bit 7; `y` is ignored (log 11). -/
def execShl (x _y : Reg) (s : State) : Result :=
  finishRegFlag s x (s.getV x <<< 1) (shiftedOutLeft (s.getV x))

/-- Randomize (R114): V[x] = random byte AND kk. -/
def execRnd (x : Reg) (kk : Byte) (s : State) : Result :=
  finishReg s.drawRandom x (s.randomByte &&& kk)

end Sys2Proof.Machine
end

