-- ==== Sys2Proof/Machine/Control.lean ====
section
/-! DEFINITION. Control transfer (40_control_transfer R80 to R84). -/

namespace Sys2Proof.Machine

/-- Return (R80): pop, pc = popped value + 2; StackFault(underflow) when sp = 0. -/
def execRet (s : State) : Result :=
  match s.pop with
  | none => raiseUnderflow s .ret
  | some (a, t) => .next (t.goto (a + 2))

/-- Jump (R81): pc = nnn. -/
def execJp (nnn : Imm12) (s : State) : Result := .next (s.goto (addressOf nnn))

/-- Call (R82): push the address of this Call, pc = nnn; StackFault(overflow) when sp = 16. -/
def execCall (nnn : Imm12) (s : State) : Result :=
  match s.push s.pc with
  | none => raiseOverflow s (.call nnn)
  | some t => .next (t.goto (addressOf nnn))

/-- Jump with offset (R83): pc = nnn + V0, not reduced to 12 bits (log 16). -/
def execJpV0 (nnn : Imm12) (s : State) : Result :=
  .next (s.goto (BitVec.ofNat 16 (nnn.toNat + (s.getV 0).toNat)))

end Sys2Proof.Machine
end

