-- ==== Sys2Proof/Machine/Display.lean ====
section
/-! DEFINITION. The framebuffer and the display instructions (10_state R20; 44_display R130 to R133). -/

namespace Sys2Proof.Machine

/-! ## Pixels (10_state R20) -/

/-- `FB[p]`: bit `p mod 64` of row `p / 64`. -/
def pixel (fb : Framebuffer) (p : Pixel) : Bool := (fb[p.val / 64]'(by omega)).getLsbD (p.val % 64)

/-- `FB[p] <- FB[p] ^ 1`. -/
def togglePixel (fb : Framebuffer) (p : Pixel) : Framebuffer :=
  fb.set (p.val / 64) (fb[p.val / 64]'(by omega) ^^^ (1#64 <<< (p.val % 64))) (by omega)

/-- The pixel under row r, column c of a sprite at (x0, y0): each coordinate wraps on its own axis
(44_display R131; log 9). -/
def spritePixel (x0 y0 : Byte) (r c : Nat) : Pixel :=
  ⟨(x0.toNat + c) % 64 + (y0.toNat + r) % 32 * 64, by omega⟩

/-! ## Sprites -/

/-- Column c of a sprite row is bit 7 - c of its byte (44_display R131; log 8). -/
def spriteBit (b : Byte) (c : Nat) : Bool := b.getLsbD (7 - c)

/-- The pixels under the 1 bits of sprite row r, by rising column. -/
def rowPixels (x0 y0 : Byte) (r : Nat) (b : Byte) : List Pixel :=
  ((List.range 8).filter (spriteBit b)).map (spritePixel x0 y0 r)

/-- The pixels under the 1 bits of the sprite rows `bytes`, the first of them row r, in the order the
spec visits them. -/
def spritePixels (x0 y0 : Byte) : Nat → List Byte → List Pixel
  | _, [] => []
  | r, b :: bs => rowPixels x0 y0 r b ++ spritePixels x0 y0 (r + 1) bs

/-- XOR pixels one after the other and note a hit whenever one goes from 1 to 0 (44_display R132). -/
def drawPixels : List Pixel → Framebuffer → Bool → Framebuffer × Bool
  | [], fb, hit => (fb, hit)
  | p :: ps, fb, hit => drawPixels ps (togglePixel fb p) (hit || pixel fb p)

/-- The framebuffer and the collision of drawing the `n` rows at I at (V[x], V[y]); the coordinates
are read before VF is written (44_display R132). -/
def State.drawn (s : State) (x y : Reg) (n : Nibble) : Framebuffer × Bool :=
  drawPixels (spritePixels (s.getV x) (s.getV y) 0 (s.M.readBytes s.I.toNat n.toNat)) s.FB false

/-! ## The instructions -/

/-- Clear screen (R130); VF is not changed. -/
def execCls (s : State) : Result := .next { s with FB := Vector.replicate 32 0 }.advance

/-- Draw sprite (R132): XOR, VF = collision. With n = 0 nothing is read or drawn and VF = 0
(log 24). -/
def execDrw (x y : Reg) (n : Nibble) (s : State) : Result :=
  withData s (.drw x y n) n.toNat
    (.next (({ s with FB := (s.drawn x y n).1 } : State).setV VF (flagByte (s.drawn x y n).2)).advance)

end Sys2Proof.Machine
end

