-- ==== Sys2Proof/Machine/Index.lean ====
section
/-! DEFINITION. The address register and the memory instructions (43_index_memory R120 to R126). Every
bound check comes before the first write (20_memory R50). -/

namespace Sys2Proof.Machine

/-- Set address register (R120). -/
def execLdI (nnn : Imm12) (s : State) : Result := .next { s with I := addressOf nnn }.advance

/-- Add to I (R121): 16-bit wrap of I; VF = 1 when the true sum is above 0xFFF (log 15). -/
def execAddI (x : Reg) (s : State) : Result :=
  .next (({ s with I := s.I + (s.getV x).setWidth 16 } : State).setV VF
    (flagByte (indexOverflow s.I (s.getV x)))).advance

/-- Font address (R122): I = V[x] * 5, the whole byte. -/
def execLdF (x : Reg) (s : State) : Result :=
  .next { s with I := BitVec.ofNat 16 ((s.getV x).toNat * 5) }.advance

/-- BCD store (R123): hundreds, tens, ones at I, I+1, I+2; I is not changed. -/
def execLdB (x : Reg) (s : State) : Result :=
  withData s (.ldB x) 3 (.next (s.storeAtI (bcdDigits (s.getV x))).advance)

/-- Block store (R124): V0..Vx at I, I+1, …; then I advances by x + 1. -/
def execStRegs (x : Reg) (s : State) : Result :=
  withData s (.stRegs x) (x.val + 1)
    (.next ((s.storeAtI (s.firstRegs x)).advanceI (x.val + 1)).advance)

/-- Block load (R125): V0..Vx from I, I+1, …; then I advances by x + 1. -/
def execLdRegs (x : Reg) (s : State) : Result :=
  withData s (.ldRegs x) (x.val + 1)
    (.next (({ s with V := s.loadedRegs x s.I.toNat } : State).advanceI (x.val + 1)).advance)

end Sys2Proof.Machine
end

