-- ==== Sys2Proof/Machine/Keypad.lean ====
section
/-! DEFINITION. Keypad and timer instructions (45_keypad_timers R140 to R146) and the TimerBank's Tick
(60_exceptions R172, R173). -/

namespace Sys2Proof.Machine

/-- Skip if key pressed (R140): the key is the low 4 bits of V[x]. -/
def execSkp (x : Reg) (s : State) : Result := .next (s.skipIf (s.keyDown (keyNumber (s.getV x))))

/-- Skip if key not pressed (R141). -/
def execSknp (x : Reg) (s : State) : Result := .next (s.skipIf (!s.keyDown (keyNumber (s.getV x))))

/-- Wait for key (R142): suspended while no key is pressed, else V[x] = the smallest pressed key. -/
def execLdVxK (x : Reg) (s : State) : Result :=
  match s.lowestKey with
  | none => .next s.suspend
  | some k => finishReg s x (keyByte k)

/-- Read delay timer (R143). -/
def execLdVxDt (x : Reg) (s : State) : Result := finishReg s x s.DT

/-- Set delay timer (R144). -/
def execLdDtVx (x : Reg) (s : State) : Result := .next { s with DT := s.getV x }.advance

/-- Set sound timer (R145); it never emits the beep (log 17). -/
def execLdStVx (x : Reg) (s : State) : Result := .next { s with ST := s.getV x }.advance

/-! ## Tick (60_exceptions R172, R173) -/

/-- A timer one tick later: never below 0. -/
def timerDown (t : Byte) : Byte := if t = 0 then 0 else t - 1

/-- `Tick()`: both timers count down and the beep is reported exactly when ST was 1. -/
def tick (s : State) : State :=
  { s with DT := timerDown s.DT, ST := timerDown s.ST, report := .ticked (s.ST == 1) }

end Sys2Proof.Machine
end

