-- ==== Sys2Proof/Machine/Unrecognized.lean ====
section
/-! DEFINITION. Unrecognized instruction words (46_unrecognized R150, R151). -/

namespace Sys2Proof.Machine

/-- Unrecognized opcode (R150): a no-op that advances pc by 2 and is reported. -/
def execUnk (op : Word) (s : State) : Result := .next (s.advanceUnknown op)

end Sys2Proof.Machine
end

