-- ==== Sys2Proof/Machine/Transitions.lean ====
section
/-! DEFINITION. The machine's three transitions (00_scope R6, R9): the Step (60_exceptions R161), the
Tick (R172) and the Reset (70_reset_and_hazards R190, R191), each as an outcome, and the total
transition function of the spec, which goes on after a fault (60_exceptions R170). -/

namespace Sys2Proof.Machine

/-- The instruction cycle of `Step(K, rnd)` on a state that holds K and rnd (60_exceptions R161): fetch,
decode, execute. -/
def cycle (s : State) : Result :=
  match s.fetch with
  | .error addr => raiseFetch s addr
  | .ok op => exec (decodeWord op) s

/-- A Step samples the sixteen keypad lines and the random byte (70_reset_and_hazards R198). -/
def State.sample (s : State) (keys : Keys) (rnd : Option Byte) : State := { s with K := keys, rnd := rnd }

/-- The state right after `Reset(PROGRAM)` (70_reset_and_hazards R190, R191; 10_state R26), whatever
the state before (log 20). The counter of free random bytes and the host's schedule are outside the core and
stay (log 21). -/
def State.boot (s : State) (program : List Byte) : State :=
  { State.reset with
    M := Memory.writeBytes State.reset.M Config.progBase program
    draws := s.draws
    schedule := s.schedule }

/-- `Reset(PROGRAM)`; it is not defined for an image of more than 3584 bytes (60_exceptions R164;
log 22). -/
def reboot (program : List Byte) (s : State) : Result :=
  if program.length ≤ Config.progMax then .next (s.boot program)
  else .refused (.imageTooLong program.length)

/-- One transition of the host's choice (00_scope R6). -/
def hostMove (e : HostEvent) (s : State) : Result :=
  match e with
  | .reset program => reboot program s
  | .step keys rnd => cycle (s.sample keys rnd)
  | .tick => .next (tick s)

/-- What the host has sampled into the state when the transition ends in a fault. -/
def State.inputsOf (s : State) (e : HostEvent) : State :=
  match e with
  | .step keys rnd => s.sample keys rnd
  | .reset _ | .tick => s

/-- The spec's transition function as a total one (00_scope R9): after a fault the state is the one
before the Step and the fault stands in the result port (60_exceptions R160, R166). -/
def transition (e : HostEvent) (s : State) : State :=
  match hostMove e s with
  | .next t => t
  | .fault f => { s.inputsOf e with report := .faulted f }
  | .refused r => { s with report := .rejected r }

/-- A run of the host's transitions, oldest first (70_reset_and_hazards R197). -/
def transitions (es : List HostEvent) (s : State) : State := es.foldl (fun t e => transition e t) s

end Sys2Proof.Machine
end

