-- ==== Sys2Proof/Machine/Step.lean ====
section
/-! DEFINITION. One step of the machine behind Host/Core.lean: the next transition of the host's
schedule, or, with an empty schedule, a Step with the keypad lines as they stand and the random byte
left open (log 2); and placing an instruction where the next step fetches it. -/

namespace Sys2Proof.Machine

/-- One transition. `State.schedule` says which (70_reset_and_hazards R197, R199). -/
def step (s : State) : Host.Outcome State Fault Refusal :=
  match s.schedule with
  | [] => cycle { s with rnd := none }
  | e :: rest => hostMove e { s with schedule := rest }

/-- Where the next instruction is fetched: pc, or the entry point when nothing can be fetched at pc. -/
def State.fetchAddress (s : State) : Word := if s.pc.toNat < 0xFFF then s.pc else 0x200

/-- The state with an instruction word (numbered as the opcode table numbers it) stored where `step`
fetches its next instruction, and the schedule emptied so that the next step is a Step (log 1). -/
def State.withFetchWord (s : State) (nbits w : Nat) : State :=
  { s with
    M := s.M.writeBytes s.fetchAddress.toNat [hiByte (tableWord nbits w), loByte (tableWord nbits w)]
    pc := s.fetchAddress
    schedule := [] }

end Sys2Proof.Machine
end

