-- ==== Sys2Proof/WellFormed.lean ====
section
/-! DEFINITION. Which terms of `Instr` are instructions: every register and immediate field holds
exactly the values its bits admit by its type (30_encoding R63), so the one check left is that an
unrecognized word is one, that is, matches none of rows 1 to 34 (30_encoding R65, R66;
46_unrecognized R150). -/

namespace Sys2Proof

/-- The instruction is one the encoding can hold. -/
def Instr.wellFormed : Instr → Bool
  | .unk op => !recognized op
  | .cls | .ret | .jp _ | .call _ | .seImm _ _ | .sneImm _ _ | .seReg _ _ | .ldImm _ _
  | .addImm _ _ | .ldReg _ _ | .or _ _ | .and _ _ | .xor _ _ | .addReg _ _ | .sub _ _
  | .shr _ _ | .subn _ _ | .shl _ _ | .sneReg _ _ | .ldI _ | .jpV0 _ | .rnd _ _ | .drw _ _ _
  | .skp _ | .sknp _ | .ldVxDt _ | .ldVxK _ | .ldDtVx _ | .ldStVx _ | .addI _ | .ldF _ | .ldB _
  | .stRegs _ | .ldRegs _ => true

end Sys2Proof
end

