-- ==== Sys2Proof/Safety.lean ====
section
/-! DEFINITION. The terms claims are stated in: the invariant of every reachable state (10_state R27),
what a clean run is (46_unrecognized R151), when a program has finished (70_reset_and_hazards R193),
and which registers an instruction reads and writes (10_state R12, R13). -/

namespace Sys2Proof.Machine

/-! ## The invariant (10_state R27) -/

/-- What holds in every state reachable from Reset by Steps and Ticks (10_state R27), beyond what the
types of the fields say: pc is at most 0x10FE, every stack entry in use is a value pc held at a
successful fetch, and memory is in its canonical form. -/
structure State.Inv (s : State) : Prop where
  pc_le : s.pc.toNat ≤ 0x10FE
  stack_le : ∀ j : Fin 16, j.val < s.sp.val → s.S[j].toNat ≤ 0xFFE
  mem_wf : s.M.wf = true

/-! ## Runs -/

/-- The next `k` steps all succeed and none of them reports UnknownOpcode (46_unrecognized R151). -/
def runsCleanly : Nat → State → Prop
  | 0, _ => True
  | k + 1, s => ∃ t, step s = .next t ∧ (∀ pc op, t.report ≠ .unknownOpcode pc op) ∧ runsCleanly k t

/-- The program has finished: the word at pc is a Jump to pc itself (70_reset_and_hazards R193). -/
def State.finished (s : State) : Prop := ∃ nnn : Imm12, s.fetch = .ok (encode (.jp nnn)) ∧ addressOf nnn = s.pc

/-- No keypad line is pressed. -/
def Keys.none : Keys := Vector.replicate 16 false

/-! ## Registers (10_state R12) -/

/-- V0 to Vx. -/
def regsUpTo (x : Reg) : List Reg := (List.finRange 16).filter fun r => decide (r ≤ x)

/-- The general registers an instruction reads (10_state R12, column "reads"). -/
def regReads : Instr → List Reg
  | .seImm x _ | .sneImm x _ => [x]
  | .seReg x y | .sneReg x y => [x, y]
  | .ldImm _ _ => []
  | .addImm x _ => [x]
  | .ldReg _ y => [y]
  | .or x y | .and x y | .xor x y => [x, y]
  | .addReg x y | .sub x y | .subn x y => [x, y]
  | .shr x _ | .shl x _ => [x]
  | .jpV0 _ => [0]
  | .rnd _ _ => []
  | .drw x y _ => [x, y]
  | .skp x | .sknp x => [x]
  | .ldVxDt _ | .ldVxK _ => []
  | .ldDtVx x | .ldStVx x => [x]
  | .addI x | .ldF x | .ldB x => [x]
  | .stRegs x => regsUpTo x
  | .ldRegs _ => []
  | .cls | .ret | .jp _ | .call _ | .ldI _ | .unk _ => []

/-- The general registers an instruction writes as a destination (10_state R12, column "writes"). -/
def regWrites : Instr → List Reg
  | .ldImm x _ | .addImm x _ | .ldReg x _ | .or x _ | .and x _ | .xor x _ | .addReg x _ | .sub x _
  | .shr x _ | .subn x _ | .shl x _ | .rnd x _ | .ldVxDt x | .ldVxK x => [x]
  | .ldRegs x => regsUpTo x
  | .cls | .ret | .jp _ | .call _ | .seImm _ _ | .sneImm _ _ | .seReg _ _ | .sneReg _ _ | .ldI _
  | .jpV0 _ | .drw _ _ _ | .skp _ | .sknp _ | .ldDtVx _ | .ldStVx _ | .addI _ | .ldF _ | .ldB _
  | .stRegs _ | .unk _ => []

/-- The seven instructions that write VF as a flag (10_state R12, R13). -/
def writesFlag : Instr → Bool
  | .addReg _ _ | .sub _ _ | .shr _ _ | .subn _ _ | .shl _ _ | .addI _ | .drw _ _ _ => true
  | .cls | .ret | .jp _ | .call _ | .seImm _ _ | .sneImm _ _ | .seReg _ _ | .ldImm _ _
  | .addImm _ _ | .ldReg _ _ | .or _ _ | .and _ _ | .xor _ _ | .sneReg _ _ | .ldI _ | .jpV0 _
  | .rnd _ _ | .skp _ | .sknp _ | .ldVxDt _ | .ldVxK _ | .ldDtVx _ | .ldStVx _ | .ldF _ | .ldB _
  | .stRegs _ | .ldRegs _ | .unk _ => false

/-- `t` is `s` after an instruction that wrote the register `x` and nothing else: every other register,
memory, I, the stack, the framebuffer, the timers and the keypad lines are as before, pc advanced
by 2 and the Step was Ok (10_state R12, R16). -/
structure OnlyRegWritten (x : Reg) (s t : State) : Prop where
  regs : ∀ r : Reg, r ≠ x → t.V[r] = s.V[r]
  rest : t = { s with V := t.V, pc := s.pc + 2, report := .ok }

/-- `t` is `s` after an instruction that wrote the register `x` and the flag VF and nothing else. -/
structure OnlyRegAndFlagWritten (x : Reg) (s t : State) : Prop where
  regs : ∀ r : Reg, r ≠ x → r ≠ VF → t.V[r] = s.V[r]
  rest : t = { s with V := t.V, pc := s.pc + 2, report := .ok }

/-! ## The program counter (10_state R16) -/

/-- The condition of a skip instruction (10_state R16; 41_skips; 45_keypad_timers R140, R141); `none` for
the instructions that are no skips. -/
def skipCondition (i : Instr) (s : State) : Option Bool :=
  match i with
  | .seImm x kk => some (s.V[x] == kk)
  | .sneImm x kk => some (s.V[x] != kk)
  | .seReg x y => some (s.V[x] == s.V[y])
  | .sneReg x y => some (s.V[x] != s.V[y])
  | .skp x => some s.K[keyNumber s.V[x]]
  | .sknp x => some (!s.K[keyNumber s.V[x]])
  | .cls | .ret | .jp _ | .call _ | .ldImm _ _ | .addImm _ _ | .ldReg _ _ | .or _ _ | .and _ _
  | .xor _ _ | .addReg _ _ | .sub _ _ | .shr _ _ | .subn _ _ | .shl _ _ | .ldI _ | .jpV0 _
  | .rnd _ _ | .drw _ _ _ | .ldVxDt _ | .ldVxK _ | .ldDtVx _ | .ldStVx _ | .addI _ | .ldF _ | .ldB _
  | .stRegs _ | .ldRegs _ | .unk _ => none

/-- The table of 10_state R16: where pc is after an instruction that did not fault. -/
def pcAfter (i : Instr) (s : State) : Word :=
  match i with
  | .jp nnn | .call nnn => nnn.setWidth 16
  | .jpV0 nnn => nnn.setWidth 16 + s.V[(0 : Reg)].setWidth 16
  | .ret => s.S.toList.getD (s.sp.val - 1) 0 + 2
  | .ldVxK _ => if s.K = Keys.none then s.pc else s.pc + 2
  | .seImm _ _ | .sneImm _ _ | .seReg _ _ | .sneReg _ _ | .skp _ | .sknp _ =>
    if skipCondition i s = some true then s.pc + 4 else s.pc + 2
  | .cls | .ldImm _ _ | .addImm _ _ | .ldReg _ _ | .or _ _ | .and _ _ | .xor _ _ | .addReg _ _
  | .sub _ _ | .shr _ _ | .subn _ _ | .shl _ _ | .ldI _ | .rnd _ _ | .drw _ _ _ | .ldVxDt _
  | .ldDtVx _ | .ldStVx _ | .addI _ | .ldF _ | .ldB _ | .stRegs _ | .ldRegs _ | .unk _ => s.pc + 2

/-! ## Host events -/

/-- The event is no Reset. -/
def HostEvent.keepsRunning : HostEvent → Bool
  | .reset _ => false
  | .step _ _ | .tick => true

/-- The event is a Tick, or a Step with no key pressed. -/
def HostEvent.pressesNothing : HostEvent → Bool
  | .reset _ => false
  | .step keys _ => keys == Keys.none
  | .tick => true

/-- `t` is `s` but for the timers, the host's inputs and the result port. -/
def SameProgramState (s t : State) : Prop :=
  t = { s with DT := t.DT, ST := t.ST, K := t.K, rnd := t.rnd, report := t.report }

/-! ## Pixels -/

/-- Pixel `p` lies under a 1 bit of the `n`-row sprite in memory `m` at `a`, drawn at (x0, y0)
(44_display R131). -/
def underSprite (m : Memory) (a : Nat) (n : Nat) (x0 y0 : Byte) (p : Pixel) : Prop :=
  ∃ r c : Nat, r < n ∧ c < 8 ∧ (m.read (a + r)).getLsbD (7 - c) = true ∧
    p.val = (x0.toNat + c) % 64 + (y0.toNat + r) % 32 * 64

end Sys2Proof.Machine
end

