-- ==== Sys2Proof/Certificates/Slice0/Obligations.lean ====
section
/-! DEFINITION. The statements for the provers. Each docstring names the rules of the spec it comes from;
where a clause rests on a decision of the spec (92, D<n>), on its general knowledge (93, G<n>) or on
a choice of the model (log <n>), the docstring says so. -/

open Sys2Proof Sys2Proof.Machine

/-! ## Encoding (30_encoding) -/

/-- Decoding the bytes of a well-formed instruction gives it back with every operand, and leaves the
bytes after it (R60 to R67; the numbers are the spec's general knowledge G1, match strictness D6). -/
def Obligations.DecodingAnEncodedInstructionGivesItBack : Prop :=
  ∀ (i : Instr) (rest : List Byte), i.wellFormed = true →
    decode (encodeBytes i ++ rest) = .ok (i, rest)

/-- Every one of the 65536 words decodes to a well-formed instruction whose encoding is that word: the
decoder is total and drops no bit, the ignored `y` of the shifts included (R67, R69). -/
def Obligations.EncodingADecodedWordGivesItBack : Prop :=
  ∀ op : Word, (decodeWord op).wellFormed = true ∧ encode (decodeWord op) = op

/-- The 34 match sets are pairwise disjoint (R66). -/
def Obligations.NoWordMatchesTwoOpcodeRows : Prop :=
  ∀ (op : Word) (r r' : OpcodeRow), r ∈ opcodeTable → r' ∈ opcodeTable →
    r.accepts op = true → r'.accepts op = true → r = r'

/-- The unrecognized words are exactly those of the table of R68 (from R66, decision D6), by the decoder
and by the match/mask table alike. -/
def Obligations.UnrecognizedWordsAreThoseOfTheTable : Prop :=
  ∀ op : Word,
    let g := op.toNat / 4096
    let n := op.toNat % 16
    let kk := op.toNat % 256
    let unrecognized :=
      (g = 0x0 ∧ op.toNat ≠ 0x00E0 ∧ op.toNat ≠ 0x00EE) ∨
      (g = 0x5 ∧ n ≠ 0) ∨
      (g = 0x8 ∧ n ∈ [0x8, 0x9, 0xA, 0xB, 0xC, 0xD, 0xF]) ∨
      (g = 0x9 ∧ n ≠ 0) ∨
      (g = 0xE ∧ kk ∉ [0x9E, 0xA1]) ∨
      (g = 0xF ∧ kk ∉ [0x07, 0x0A, 0x15, 0x18, 0x1E, 0x29, 0x33, 0x55, 0x65])
    (decodeWord op = .unk op ↔ unrecognized) ∧ (recognized op = false ↔ unrecognized)

/-- Words written out from the encodings of R65 decode to the instructions they stand for. -/
def Obligations.WordsOfTheSpecDecode : Prop :=
  decodeWord 0x00E0 = .cls ∧ decodeWord 0x00EE = .ret ∧ decodeWord 0x1ABC = .jp 0xABC ∧
  decodeWord 0xB123 = .jpV0 0x123 ∧ decodeWord 0x332A = .seImm 3 0x2A ∧
  decodeWord 0x9120 = .sneReg 1 2 ∧ decodeWord 0x6FAB = .ldImm 15 0xAB ∧
  decodeWord 0x8125 = .sub 1 2 ∧ decodeWord 0x812E = .shl 1 2 ∧ decodeWord 0xC30F = .rnd 3 0x0F ∧
  decodeWord 0xD345 = .drw 3 4 5 ∧ decodeWord 0xE29E = .skp 2 ∧ decodeWord 0xF30A = .ldVxK 3 ∧
  decodeWord 0xF118 = .ldStVx 1 ∧ decodeWord 0xF255 = .stRegs 2 ∧ decodeWord 0x5121 = .unk 0x5121

/-! ## The step (60_exceptions, 20_memory) -/

/-- A step runs the decoded instruction (60_exceptions R161): when the two bytes at pc decode to `i`, the
step is `exec i`. With an empty schedule the random byte is left open and the keypad lines are as they
stand (log 2, 3); with a scheduled Step its inputs are sampled first (70_reset_and_hazards R198). -/
def Obligations.StepRunsTheDecodedInstruction : Prop :=
  ∀ (s : State) (i : Instr), i.wellFormed = true → s.pc.toNat < 0xFFF →
    decode (s.M.readBytes s.pc.toNat 2) = .ok (i, []) →
    (s.schedule = [] → step s = exec i { s with rnd := none }) ∧
    (∀ keys r rest, s.schedule = .step keys r :: rest →
      step s = exec i { s with K := keys, rnd := r, schedule := rest })

/-- A scheduled Tick or Reset is a transition of its own and runs no instruction
(70_reset_and_hazards R197; the schedule is the model's choice, log 2). -/
def Obligations.ScheduledTicksAndResetsRunNoInstruction : Prop :=
  ∀ (s : State) (rest : List HostEvent),
    (s.schedule = .tick :: rest → step s = .next (tick { s with schedule := rest })) ∧
    (∀ program : List Byte, s.schedule = .reset program :: rest → program.length ≤ 3584 →
      step s = .next { s.boot program with schedule := rest })

/-- 20_memory R45: the word is the two bytes at pc and pc + 1, big-endian; the fetch faults exactly when
pc + 1 exceeds the memory bound; and it changes no state: the instruction runs on the state itself. -/
def Obligations.FetchIsBigEndianAndFaultsExactlyPastMemory : Prop :=
  ∀ s : State,
    (s.pc.toNat < 0xFFF → ∃ op, s.fetch = .ok op ∧
      op.toNat = (s.M.read s.pc.toNat).toNat * 256 + (s.M.read (s.pc.toNat + 1)).toNat ∧
      cycle s = exec (decodeWord op) s) ∧
    (0xFFF ≤ s.pc.toNat ↔ ∃ addr, cycle s = .fault (.memoryFetch s.pc addr))

/-- 60_exceptions R162: the complete list of the sites that raise MemoryFault. -/
def Obligations.MemoryFaultsComeFromTheListedSitesOnly : Prop :=
  (∀ s : State, (∃ p a, cycle s = .fault (.memoryFetch p a)) ↔ s.pc.toNat + 1 > 0xFFF) ∧
  (∀ (i : Instr) (s : State), (∃ p op a, exec i s = .fault (.memoryData p op a)) ↔
    (∃ x y n, i = .drw x y n ∧ 1 ≤ n.toNat ∧ s.I.toNat + n.toNat - 1 > 0xFFF) ∨
    (∃ x, i = .ldB x ∧ s.I.toNat + 2 > 0xFFF) ∨
    (∃ x, i = .stRegs x ∧ s.I.toNat + x.val > 0xFFF) ∨
    (∃ x, i = .ldRegs x ∧ s.I.toNat + x.val > 0xFFF)) ∧
  (∀ (i : Instr) (s : State) (p : Word) (a : Nat), exec i s ≠ .fault (.memoryFetch p a))

/-- 60_exceptions R163: StackFault is raised by Call with sp = 16 and by Return with sp = 0, and by no
other instruction. -/
def Obligations.StackFaultsComeFromCallAndReturnOnly : Prop :=
  ∀ (i : Instr) (s : State),
    ((∃ p op n, exec i s = .fault (.stackOverflow p op n)) ↔
      (∃ nnn, i = .call nnn) ∧ s.sp.val = 16) ∧
    ((∃ p op n, exec i s = .fault (.stackUnderflow p op n)) ↔ i = .ret ∧ s.sp.val = 0)

/-- The information of a fault (60_exceptions R165, the spec's decision D4): pc, the instruction word,
and the lowest address above 0xFFF (I itself, or 0x1000) or sp. -/
def Obligations.FaultsCarryPcWordAndAddress : Prop :=
  (∀ (s : State) (f : Fault), cycle s = .fault f → s.pc.toNat ≥ 0xFFF →
    f = .memoryFetch s.pc (if s.pc.toNat > 0xFFF then s.pc.toNat else s.pc.toNat + 1)) ∧
  (∀ (i : Instr) (s : State) (f : Fault), exec i s = .fault f →
    f = .memoryData s.pc (encode i) (if s.I.toNat > 0xFFF then s.I.toNat else 0x1000) ∨
    f = .stackOverflow s.pc (encode i) s.sp ∨ f = .stackUnderflow s.pc (encode i) s.sp)

/-- No instruction is refused: every instruction is available to every program at all times
(60_exceptions R171). -/
def Obligations.NoInstructionIsRefused : Prop :=
  ∀ (i : Instr) (s : State) (r : Refusal), exec i s ≠ .refused r

/-- A faulting Step changes nothing: every field, the timers too, is as before but for the keypad lines
and the random byte the host gave and the model's result port; and whatever Steps and Ticks come
between, every later Step gives the same fault with the same information until a Reset
(60_exceptions R166, R170; the spec's decision D3). That the machine goes on after a fault is said of
`transition`, since `step` ends in the fault (log 6). -/
def Obligations.AFaultRepeatsUntilReset : Prop :=
  ∀ (s : State) (keys : Keys) (r : Option Byte) (f : Fault),
    hostMove (.step keys r) s = .fault f →
    transition (.step keys r) s = { s with K := keys, rnd := r, report := .faulted f } ∧
    ∀ es : List HostEvent, (∀ e ∈ es, e.keepsRunning = true) →
      SameProgramState s (transitions es s) ∧
      ∀ (keys' : Keys) (r' : Option Byte),
        hostMove (.step keys' r') (transitions es s) = .fault f

/-- 10_state R16: how each instruction leaves pc; a Step that faults leaves it unchanged (a suspended one
is the row of Wait for key in `pcAfter`). -/
def Obligations.ProgramCounterFollowsTheTable : Prop :=
  (∀ (i : Instr) (s t : State), exec i s = .next t → t.pc = pcAfter i s) ∧
  (∀ (s : State) (keys : Keys) (r : Option Byte) (f : Fault),
    hostMove (.step keys r) s = .fault f → (transition (.step keys r) s).pc = s.pc)

/-! ## Whole-machine rules (10_state) -/

/-- The registers an instruction can change are its destinations in the table of R12, and VF for the seven
flag writers. -/
def Obligations.RegistersChangeOnlyAsTabulated : Prop :=
  ∀ (i : Instr) (s t : State), exec i s = .next t →
    ∀ r : Reg, t.V[r] ≠ s.V[r] → r ∈ regWrites i ∨ (writesFlag i = true ∧ r = VF)

/-- A register the table of R12 does not list as read cannot influence an instruction: with another value
in it the outcome is the same, but for that register itself, which keeps its value or is overwritten
with the same one. -/
def Obligations.RegistersInfluenceOnlyAsTabulated : Prop :=
  ∀ (i : Instr) (s : State) (r : Reg) (b : Byte), r ∉ regReads i →
    (∀ f, exec i s = .fault f → exec i (s.setV r b) = .fault f) ∧
    (∀ t, exec i s = .next t → ∃ t', exec i (s.setV r b) = .next t' ∧
      t' = { t with V := t'.V } ∧ (∀ q : Reg, q ≠ r → t'.V[q] = t.V[q]) ∧
      (t'.V[r] = t.V[r] ∨ (t'.V[r] = b ∧ t.V[r] = s.V[r])))

/-- 42_alu R113: the flag is exactly 0 or 1 after each of the seven flag writers (the list of
10_state R13). -/
def Obligations.FlagValuesAreZeroOrOne : Prop :=
  ∀ (i : Instr) (s t : State), writesFlag i = true → exec i s = .next t →
    t.V[VF] = 0x00 ∨ t.V[VF] = 0x01

/-- Each other piece of state is written only by the instructions of the "written by" column of R10
(and R14 for I); the keypad lines and the host's schedule by none. -/
def Obligations.OtherStateIsWrittenOnlyAsTabulated : Prop :=
  ∀ (i : Instr) (s t : State), exec i s = .next t →
    (t.M ≠ s.M → ∃ x, i = .ldB x ∨ i = .stRegs x) ∧
    (t.I ≠ s.I → (∃ nnn, i = .ldI nnn) ∨ ∃ x, i = .addI x ∨ i = .ldF x ∨ i = .stRegs x ∨ i = .ldRegs x) ∧
    (t.S ≠ s.S → ∃ nnn, i = .call nnn) ∧
    (t.sp ≠ s.sp → ((∃ nnn, i = .call nnn) ∧ t.sp.val = s.sp.val + 1) ∨ (i = .ret ∧ t.sp.val + 1 = s.sp.val)) ∧
    (t.FB ≠ s.FB → i = .cls ∨ ∃ x y n, i = .drw x y n) ∧
    (t.DT ≠ s.DT → ∃ x, i = .ldDtVx x) ∧
    (t.ST ≠ s.ST → ∃ x, i = .ldStVx x) ∧
    t.K = s.K ∧ t.schedule = s.schedule

/-- No instruction reads the sound timer (10_state R21): with another value in it the outcome is the same,
but for the sound timer itself. -/
def Obligations.NoInstructionReadsTheSoundTimer : Prop :=
  ∀ (i : Instr) (s : State) (b : Byte),
    (∀ f, exec i s = .fault f → exec i { s with ST := b } = .fault f) ∧
    (∀ t, exec i s = .next t → ∃ t', exec i { s with ST := b } = .next t' ∧ t' = { t with ST := t'.ST })

/-- Only the three key instructions look at the keypad lines (10_state R22), and only Randomize at the
random byte (70_reset_and_hazards R198). -/
def Obligations.InputsAreReadOnlyByTheirInstructions : Prop :=
  ∀ (i : Instr) (s t : State), exec i s = .next t →
    (∀ keys : Keys, (∀ x, i ≠ .skp x ∧ i ≠ .sknp x ∧ i ≠ .ldVxK x) →
      exec i { s with K := keys } = .next { t with K := keys }) ∧
    (∀ r : Option Byte, (∀ x kk, i ≠ .rnd x kk) →
      exec i { s with rnd := r } = .next { t with rnd := r })

/-- The invariant of 10_state R27 (derived there): if it holds, it holds after every step, whatever
transition the schedule chooses. -/
def Obligations.EveryStepKeepsTheInvariant : Prop :=
  ∀ s t : State, s.Inv → step s = .next t → t.Inv

/-- The invariant of 10_state R27 holds after Reset. -/
def Obligations.TheResetStateMeetsTheInvariant : Prop := State.reset.Inv

/-! ## Reset (70_reset_and_hazards) -/

/-- 10_state R26: after `Reset(PROGRAM)` every piece of state has its reset value. -/
def Obligations.ResetGivesEveryPieceOfStateItsValue : Prop :=
  ∀ (s : State) (program : List Byte), program.length ≤ 3584 →
    ∃ t, hostMove (.reset program) s = .next t ∧
      (∀ a, a ≤ 0x04F → t.M.read a = FONT.getD a 0) ∧
      (∀ a, 0x050 ≤ a → a ≤ 0x1FF → t.M.read a = 0) ∧
      (∀ k, k < program.length → t.M.read (0x200 + k) = program.getD k 0) ∧
      (∀ a, 0x200 + program.length ≤ a → a ≤ 0xFFF → t.M.read a = 0) ∧
      (∀ r : Reg, t.V[r] = 0) ∧ t.I = 0 ∧ t.pc = 0x200 ∧
      (∀ j : Fin 16, t.S[j] = 0) ∧ t.sp = 0 ∧
      (∀ p : Pixel, pixel t.FB p = false) ∧ t.DT = 0 ∧ t.ST = 0 ∧ (∀ k : Fin 16, t.K[k] = false)

/-- Every image of at most 3584 bytes is accepted (70_reset_and_hazards R191), and a longer one, for which
Reset is not defined (60_exceptions R164), is refused by name, the model's choice (log 22). That the
state the machine starts in is the one a Reset with the empty image leaves is the model's choice too
(log 1), as is that the free-byte counter and the schedule stay (log 21). -/
def Obligations.ResetIsDefinedForImagesThatFit : Prop :=
  (∀ (s : State) (program : List Byte), program.length ≤ 3584 →
    ∃ t, hostMove (.reset program) s = .next t) ∧
  (∀ (s : State) (program : List Byte), 3584 < program.length →
    hostMove (.reset program) s = .refused (.imageTooLong program.length)) ∧
  (∀ s : State, hostMove (.reset []) s =
    .next { State.reset with draws := s.draws, schedule := s.schedule })

/-! ## Tick (60_exceptions) -/

/-- 60_exceptions R172: a Tick decrements each nonzero timer, reports the beep exactly when the sound timer
was 1, touches nothing else and cannot fault. -/
def Obligations.TickCountsTheTimersDown : Prop :=
  ∀ s : State, ∃ t, hostMove .tick s = .next t ∧
    t.DT.toNat = s.DT.toNat - 1 ∧ t.ST.toNat = s.ST.toNat - 1 ∧
    t.report = .ticked (decide (s.ST.toNat = 1)) ∧
    t = { s with DT := t.DT, ST := t.ST, report := t.report }

/-- The beep event comes from exactly those Ticks that find ST = 1 and from no other transition
(60_exceptions R173, 45_keypad_timers R145; the spec's decision D18). -/
def Obligations.BeepsComeOnlyFromATickAtOne : Prop :=
  ∀ (e : HostEvent) (s t : State), hostMove e s = .next t →
    (t.report = .ticked true ↔ e = .tick ∧ s.ST = 1)

/-- After any number of Ticks the timers hold their values less that number, or 0, and nothing else has
changed but the model's result port (60_exceptions R172; 95_test_vectors S8; log 4). -/
def Obligations.TimersDecayToZeroAndStay : Prop :=
  ∀ (n : Nat) (s : State), ∃ t, transitions (List.replicate n .tick) s = t ∧
    t.DT.toNat = s.DT.toNat - n ∧ t.ST.toNat = s.ST.toNat - n ∧
    t = { s with DT := t.DT, ST := t.ST, report := t.report }

/-- A Tick and an instruction that names no timer can be done in either order, but for the result port
(60_exceptions R172, 70_reset_and_hazards R197). -/
def Obligations.TicksCommuteWithInstructionsThatNameNoTimer : Prop :=
  ∀ (i : Instr) (s t : State),
    (∀ x, i ≠ .ldVxDt x ∧ i ≠ .ldDtVx x ∧ i ≠ .ldStVx x) → exec i s = .next t →
    exec i (tick s) = .next { tick t with report := t.report }

/-! ## Control transfer (40_control_transfer) -/

/-- Jump and Jump with offset (R81, R83; that pc is not reduced to 12 bits is the spec's decision D28):
only pc changes. -/
def Obligations.JumpsSetThePc : Prop :=
  ∀ (nnn : Imm12) (s : State),
    (∃ t, exec (.jp nnn) s = .next t ∧ t.pc.toNat = nnn.toNat ∧
      t = { s with pc := t.pc, report := .ok }) ∧
    (∃ t, exec (.jpV0 nnn) s = .next t ∧ t.pc.toNat = nnn.toNat + s.V[(0 : Reg)].toNat ∧
      t = { s with pc := t.pc, report := .ok })

/-- Call (R82): with a free slot it pushes its own address and jumps, changing nothing else; with sp = 16
it is StackFault. -/
def Obligations.CallPushesItsOwnAddress : Prop :=
  ∀ (nnn : Imm12) (s : State),
    (∀ j : Fin 16, s.sp.val = j.val → ∃ t, exec (.call nnn) s = .next t ∧
      t.S[j] = s.pc ∧ (∀ k : Fin 16, k ≠ j → t.S[k] = s.S[k]) ∧ t.sp.val = j.val + 1 ∧
      t.pc.toNat = nnn.toNat ∧ t = { s with S := t.S, sp := t.sp, pc := t.pc, report := .ok }) ∧
    (s.sp.val = 16 → exec (.call nnn) s = .fault (.stackOverflow s.pc (encode (.call nnn)) s.sp))

/-- Return (R80): pc is the newest entry plus 2 and only sp changes besides (the slot keeps its value, the
spec's decision D21); with sp = 0 it is StackFault. -/
def Obligations.ReturnPopsTheNewestEntry : Prop :=
  ∀ s : State,
    (∀ j : Fin 16, s.sp.val = j.val + 1 → ∃ t, exec .ret s = .next t ∧
      t.pc = s.S[j] + 2 ∧ t.sp.val = j.val ∧ t = { s with sp := t.sp, pc := t.pc, report := .ok }) ∧
    (s.sp.val = 0 → exec .ret s = .fault (.stackUnderflow s.pc 0x00EE s.sp))

/-- Call completes exactly when a stack slot is free and Return exactly when an entry is in use
(R80, R82; 60_exceptions R163): no other state makes either stop. -/
def Obligations.CallAndReturnCompleteExactlyWithRoomOnTheStack : Prop :=
  ∀ (nnn : Imm12) (s : State),
    (s.sp.val < 16 ↔ ∃ t, exec (.call nnn) s = .next t) ∧
    (0 < s.sp.val ↔ ∃ t, exec .ret s = .next t)

/-- A Call and then a Return resume at the instruction after the Call with the stack as before
(R80, R82; 95_test_vectors S7), whatever ran between them as long as it left the stack alone. -/
def Obligations.CallThenReturnResumesAfterTheCall : Prop :=
  ∀ (nnn : Imm12) (s : State), s.sp.val < 16 →
    ∃ t, exec (.call nnn) s = .next t ∧
      ∀ u : State, u.S = t.S → u.sp = t.sp → ∃ v, exec .ret u = .next v ∧
        v.pc = s.pc + 2 ∧ v.sp = s.sp ∧ ∀ j : Fin 16, j.val < s.sp.val → v.S[j] = s.S[j]

/-- A finished program, a Jump to itself, stays where it is under any Steps and Ticks; only the timers
and the host's inputs change (40_control_transfer R81; 70_reset_and_hazards R193). -/
def Obligations.AFinishedProgramStaysFinished : Prop :=
  ∀ s : State, s.finished → ∀ es : List HostEvent, (∀ e ∈ es, e.keepsRunning = true) →
    SameProgramState s (transitions es s) ∧ (transitions es s).finished

/-! ## Skips (41_skips, 45_keypad_timers) -/

/-- The six skips (R90 to R94; R140, R141, the key being the low 4 bits of V[x], the spec's decision D11):
pc advances by 4 exactly when the condition holds, else by 2, and nothing else changes. -/
def Obligations.SkipsAdvanceByFourExactlyOnTheirCondition : Prop :=
  ∀ (x y : Reg) (kk : Byte) (k : Fin 16) (s : State), s.V[x].toNat % 16 = k.val →
    exec (.seImm x kk) s = .next { s with
      pc := if s.V[x].toNat = kk.toNat then s.pc + 4 else s.pc + 2, report := .ok } ∧
    exec (.sneImm x kk) s = .next { s with
      pc := if s.V[x].toNat = kk.toNat then s.pc + 2 else s.pc + 4, report := .ok } ∧
    exec (.seReg x y) s = .next { s with
      pc := if s.V[x].toNat = s.V[y].toNat then s.pc + 4 else s.pc + 2, report := .ok } ∧
    exec (.sneReg x y) s = .next { s with
      pc := if s.V[x].toNat = s.V[y].toNat then s.pc + 2 else s.pc + 4, report := .ok } ∧
    exec (.skp x) s = .next { s with
      pc := if s.K[k] = true then s.pc + 4 else s.pc + 2, report := .ok } ∧
    exec (.sknp x) s = .next { s with
      pc := if s.K[k] = true then s.pc + 2 else s.pc + 4, report := .ok }

/-! ## Registers, arithmetic, logic, shifts, random (42_alu) -/

/-- Load immediate, Add immediate, Copy, OR, AND, XOR (R101 to R106): the result, no flag, nothing else
changed. -/
def Obligations.LoadsAndLogicWriteTheirRegisterOnly : Prop :=
  ∀ (x y : Reg) (kk : Byte) (s : State),
    (∃ t, exec (.ldImm x kk) s = .next t ∧ OnlyRegWritten x s t ∧ t.V[x] = kk) ∧
    (∃ t, exec (.addImm x kk) s = .next t ∧ OnlyRegWritten x s t ∧
      t.V[x].toNat = (s.V[x].toNat + kk.toNat) % 256) ∧
    (∃ t, exec (.ldReg x y) s = .next t ∧ OnlyRegWritten x s t ∧ t.V[x] = s.V[y]) ∧
    (∃ t, exec (.or x y) s = .next t ∧ OnlyRegWritten x s t ∧
      ∀ k, t.V[x].getLsbD k = (s.V[x].getLsbD k || s.V[y].getLsbD k)) ∧
    (∃ t, exec (.and x y) s = .next t ∧ OnlyRegWritten x s t ∧
      ∀ k, t.V[x].getLsbD k = (s.V[x].getLsbD k && s.V[y].getLsbD k)) ∧
    (∃ t, exec (.xor x y) s = .next t ∧ OnlyRegWritten x s t ∧
      ∀ k, t.V[x].getLsbD k = (s.V[x].getLsbD k ^^ s.V[y].getLsbD k))

/-- Add registers (R107): VF is 1 exactly when the sum exceeds 255, and the result is the sum modulo 256;
when x = 0xF the flag wins (R100, the spec's decision D8). -/
def Obligations.AddSetsTheCarry : Prop :=
  ∀ (x y : Reg) (s : State), ∃ t, exec (.addReg x y) s = .next t ∧ OnlyRegAndFlagWritten x s t ∧
    (x ≠ VF → t.V[x].toNat = (s.V[x].toNat + s.V[y].toNat) % 256) ∧
    t.V[VF].toNat = if s.V[x].toNat + s.V[y].toNat > 255 then 1 else 0

/-- Subtract and Reverse subtract (R108, R110): VF is 0 exactly on a borrow, and the result is the difference
modulo 256; when x = 0xF the flag wins (R100, the spec's decision D8). -/
def Obligations.SubtractsClearTheFlagOnABorrow : Prop :=
  ∀ (x y : Reg) (s : State),
    (∃ t, exec (.sub x y) s = .next t ∧ OnlyRegAndFlagWritten x s t ∧
      (x ≠ VF → t.V[x].toNat = (s.V[x].toNat + 256 - s.V[y].toNat) % 256) ∧
      t.V[VF].toNat = if s.V[x].toNat < s.V[y].toNat then 0 else 1) ∧
    (∃ t, exec (.subn x y) s = .next t ∧ OnlyRegAndFlagWritten x s t ∧
      (x ≠ VF → t.V[x].toNat = (s.V[y].toNat + 256 - s.V[x].toNat) % 256) ∧
      t.V[VF].toNat = if s.V[y].toNat < s.V[x].toNat then 0 else 1)

/-- The shifts (R109, R111): V[x] alone is shifted by one (the spec's decision D7) and VF is the bit that
drops out; when x = 0xF the flag wins (R100, D8). -/
def Obligations.ShiftsKeepTheDroppedBitInVF : Prop :=
  ∀ (x y : Reg) (s : State),
    (∃ t, exec (.shr x y) s = .next t ∧ OnlyRegAndFlagWritten x s t ∧
      (x ≠ VF → t.V[x].toNat = s.V[x].toNat / 2) ∧ t.V[VF].toNat = s.V[x].toNat % 2) ∧
    (∃ t, exec (.shl x y) s = .next t ∧ OnlyRegAndFlagWritten x s t ∧
      (x ≠ VF → t.V[x].toNat = 2 * s.V[x].toNat % 256) ∧ t.V[VF].toNat = s.V[x].toNat / 128)

/-- Randomize (R114): V[x] is the random byte AND kk, for every byte the host can give and, where it gives
none, for a free byte that the next Randomize does not share (log 3); no flag, nothing else. -/
def Obligations.RandomizeMasksAnyRandomByte : Prop :=
  ∀ (x : Reg) (kk : Byte) (s : State),
    (∀ b, s.rnd = some b → ∃ t, exec (.rnd x kk) s = .next t ∧ OnlyRegWritten x s t ∧
      t.V[x] = b &&& kk) ∧
    (s.rnd = none → ∃ t, exec (.rnd x kk) s = .next t ∧
      t.V[x] = Config.freeRandomByte s.draws &&& kk ∧
      (∀ r : Reg, r ≠ x → t.V[r] = s.V[r]) ∧
      t = { s with V := t.V, draws := s.draws + 1, pc := s.pc + 2, report := .ok })

/-! ## The address register and memory (43_index_memory) -/

/-- Set address register, Add to I and Font address (R120 to R122; the 16-bit wrap of I is the spec's
decision D16, the flag from the true sum D17). -/
def Obligations.AddressRegisterInstructionsSetI : Prop :=
  ∀ (x : Reg) (nnn : Imm12) (s : State),
    (∃ t, exec (.ldI nnn) s = .next t ∧ t.I.toNat = nnn.toNat ∧
      t = { s with I := t.I, pc := s.pc + 2, report := .ok }) ∧
    (∃ t, exec (.addI x) s = .next t ∧ t.I.toNat = (s.I.toNat + s.V[x].toNat) % 65536 ∧
      t.V[VF].toNat = (if s.I.toNat + s.V[x].toNat > 0xFFF then 1 else 0) ∧
      (∀ r : Reg, r ≠ VF → t.V[r] = s.V[r]) ∧
      t = { s with I := t.I, V := t.V, pc := s.pc + 2, report := .ok }) ∧
    (∃ t, exec (.ldF x) s = .next t ∧ t.I.toNat = 5 * s.V[x].toNat ∧
      t = { s with I := t.I, pc := s.pc + 2, report := .ok })

/-- BCD store (R123): the three digits at I, I+1, I+2, every other byte and everything else unchanged; a
fault with no write when I + 2 is outside memory (20_memory R50, the spec's decisions D2, D3). -/
def Obligations.BcdStoreWritesThreeDigits : Prop :=
  ∀ (x : Reg) (s : State), s.M.wf = true →
    (s.I.toNat + 2 ≤ 0xFFF → ∃ t, exec (.ldB x) s = .next t ∧
      (t.M.read s.I.toNat).toNat = s.V[x].toNat / 100 ∧
      (t.M.read (s.I.toNat + 1)).toNat = s.V[x].toNat / 10 % 10 ∧
      (t.M.read (s.I.toNat + 2)).toNat = s.V[x].toNat % 10 ∧
      (∀ a, a < s.I.toNat ∨ s.I.toNat + 2 < a → t.M.read a = s.M.read a) ∧
      t = { s with M := t.M, pc := s.pc + 2, report := .ok }) ∧
    (s.I.toNat + 2 > 0xFFF → exec (.ldB x) s = .fault (.memoryData s.pc (encode (.ldB x))
      (if s.I.toNat > 0xFFF then s.I.toNat else 0x1000)))

/-- Block store (R124): V0..Vx at I, I+1, …, then I advances by x + 1; every other byte and everything else
unchanged; a fault with no write when I + x is outside memory (D2, D3; the wrap of I is D16). -/
def Obligations.BlockStoreWritesTheFirstRegisters : Prop :=
  ∀ (x : Reg) (s : State), s.M.wf = true →
    (s.I.toNat + x.val ≤ 0xFFF → ∃ t, exec (.stRegs x) s = .next t ∧
      (∀ r : Reg, r.val ≤ x.val → t.M.read (s.I.toNat + r.val) = s.V[r]) ∧
      (∀ a, a < s.I.toNat ∨ s.I.toNat + x.val < a → t.M.read a = s.M.read a) ∧
      t.I.toNat = (s.I.toNat + x.val + 1) % 65536 ∧
      t = { s with M := t.M, I := t.I, pc := s.pc + 2, report := .ok }) ∧
    (s.I.toNat + x.val > 0xFFF → exec (.stRegs x) s = .fault (.memoryData s.pc (encode (.stRegs x))
      (if s.I.toNat > 0xFFF then s.I.toNat else 0x1000)))

/-- Block load (R125): V0..Vx from I, I+1, …, then I advances by x + 1; the registers above x, memory and
everything else unchanged; a fault with no load when I + x is outside memory (D2, D3; D16). -/
def Obligations.BlockLoadReadsTheFirstRegisters : Prop :=
  ∀ (x : Reg) (s : State),
    (s.I.toNat + x.val ≤ 0xFFF → ∃ t, exec (.ldRegs x) s = .next t ∧
      (∀ r : Reg, r.val ≤ x.val → t.V[r] = s.M.read (s.I.toNat + r.val)) ∧
      (∀ r : Reg, x.val < r.val → t.V[r] = s.V[r]) ∧
      (∀ a, t.M.read a = s.M.read a) ∧
      t.I.toNat = (s.I.toNat + x.val + 1) % 65536 ∧
      t = { s with V := t.V, I := t.I, pc := s.pc + 2, report := .ok }) ∧
    (s.I.toNat + x.val > 0xFFF → exec (.ldRegs x) s = .fault (.memoryData s.pc (encode (.ldRegs x))
      (if s.I.toNat > 0xFFF then s.I.toNat else 0x1000)))

/-- Self-modifying code (20_memory R55, R46): a block store over the next instruction is what the very next
fetch reads, V0 as the high byte and V1 as the low byte. -/
def Obligations.AStoredInstructionIsFetchedNext : Prop :=
  ∀ (x : Reg) (s : State), s.M.wf = true → 1 ≤ x.val → s.I = s.pc + 2 →
    s.I.toNat + x.val ≤ 0xFFF →
    ∃ t, exec (.stRegs x) s = .next t ∧ t.fetch = .ok (bytesToWord s.V[(0 : Reg)] s.V[(1 : Reg)])

/-! ## Display (44_display) -/

/-- Clear screen (R130): every pixel 0, VF and everything else unchanged. -/
def Obligations.ClearScreenZeroesEveryPixel : Prop :=
  ∀ s : State, ∃ t, exec .cls s = .next t ∧ (∀ p : Pixel, pixel t.FB p = false) ∧
    t = { s with FB := t.FB, pc := s.pc + 2, report := .ok }

/-- Draw sprite (R132; wrap D9, bit order D10 and G4, n = 0 D26, coordinates read first D8, fault D2): a
pixel changes exactly when it lies under a 1 bit of the sprite, VF is 1 exactly when one of those was
set before, and nothing else changes. -/
def Obligations.DrawXorsTheSpriteAndReportsCollision : Prop :=
  ∀ (x y : Reg) (n : Nibble) (s : State),
    (n = 0 ∨ s.I.toNat + n.toNat - 1 ≤ 0xFFF → ∃ t, exec (.drw x y n) s = .next t ∧
      (∀ p : Pixel, pixel t.FB p ≠ pixel s.FB p ↔
        underSprite s.M s.I.toNat n.toNat s.V[x] s.V[y] p) ∧
      ((∃ p : Pixel, underSprite s.M s.I.toNat n.toNat s.V[x] s.V[y] p ∧ pixel s.FB p = true) →
        t.V[VF] = 1) ∧
      ((¬∃ p : Pixel, underSprite s.M s.I.toNat n.toNat s.V[x] s.V[y] p ∧ pixel s.FB p = true) →
        t.V[VF] = 0) ∧
      (∀ r : Reg, r ≠ VF → t.V[r] = s.V[r]) ∧
      t = { s with FB := t.FB, V := t.V, pc := s.pc + 2, report := .ok }) ∧
    (n ≠ 0 → s.I.toNat + n.toNat - 1 > 0xFFF → exec (.drw x y n) s =
      .fault (.memoryData s.pc (encode (.drw x y n)) (if s.I.toNat > 0xFFF then s.I.toNat else 0x1000)))

/-- Drawing twice (R133, derived there from R132; 95_test_vectors S4): the framebuffer is restored, and the
second Draw reports a collision exactly when the first turned a pixel on. -/
def Obligations.DrawingTwiceRestoresTheFramebuffer : Prop :=
  ∀ (x y : Reg) (n : Nibble) (s : State), x ≠ VF → y ≠ VF →
    (n = 0 ∨ s.I.toNat + n.toNat - 1 ≤ 0xFFF) →
    ∃ t u, exec (.drw x y n) s = .next t ∧ exec (.drw x y n) t = .next u ∧ u.FB = s.FB ∧
      u.V[VF].toNat ≤ 1 ∧
      (u.V[VF] = 1 ↔ ∃ p : Pixel, pixel s.FB p = false ∧ pixel t.FB p = true)

/-! ## Keypad and timers (45_keypad_timers) -/

/-- Wait for key (R142): with no key pressed the Step is suspended and changes nothing but the result port;
else V[x] is the smallest pressed key (the spec's decision D12), pc advances, nothing else. -/
def Obligations.WaitForKeySuspendsOrTakesTheLowestKey : Prop :=
  ∀ (x : Reg) (s : State),
    ((∀ k : Fin 16, s.K[k] = false) → exec (.ldVxK x) s = .next { s with report := .suspended s.pc }) ∧
    (∀ k : Fin 16, s.K[k] = true → (∀ j : Fin 16, j.val < k.val → s.K[j] = false) →
      ∃ t, exec (.ldVxK x) s = .next t ∧ OnlyRegWritten x s t ∧ t.V[x].toNat = k.val)

/-- A waiting machine stays at its Wait for key through any Ticks and Steps without a key, and the first
Step with a key ends the wait (R142; 60_exceptions R178; 95_test_vectors S9). -/
def Obligations.WaitingEndsWithTheFirstKey : Prop :=
  ∀ (x : Reg) (s : State), s.fetch = .ok (encode (.ldVxK x)) →
    ∀ es : List HostEvent, (∀ e ∈ es, e.pressesNothing = true) →
      SameProgramState s (transitions es s) ∧
      ∀ (keys : Keys) (r : Option Byte) (k : Fin 16), keys[k] = true →
        (∀ j : Fin 16, j.val < k.val → keys[j] = false) →
        ∃ u, hostMove (.step keys r) (transitions es s) = .next u ∧
          u.V[x].toNat = k.val ∧ u.pc = s.pc + 2 ∧ u.report = .ok

/-- The timer instructions (R143 to R145): Read delay timer, Set delay timer, Set sound timer. -/
def Obligations.TimerInstructionsMoveBytes : Prop :=
  ∀ (x : Reg) (s : State),
    (∃ t, exec (.ldVxDt x) s = .next t ∧ OnlyRegWritten x s t ∧ t.V[x] = s.DT) ∧
    (∃ t, exec (.ldDtVx x) s = .next t ∧ t.DT = s.V[x] ∧
      t = { s with DT := t.DT, pc := s.pc + 2, report := .ok }) ∧
    (∃ t, exec (.ldStVx x) s = .next t ∧ t.ST = s.V[x] ∧
      t = { s with ST := t.ST, pc := s.pc + 2, report := .ok })

/-! ## Unrecognized words (46_unrecognized) -/

/-- An unrecognized word is a no-op that advances pc by 2 and is reported with pc and the word (R150; the
event in the result port is the spec's decision D20, log 4). -/
def Obligations.UnrecognizedWordsAreReportedNoOps : Prop :=
  ∀ (op : Word) (s : State), recognized op = false →
    decodeWord op = .unk op ∧
    exec (.unk op) s = .next { s with pc := s.pc + 2, report := .unknownOpcode s.pc op }

/-- A Step reports UnknownOpcode exactly when the word at pc is unrecognized (R150, R151). -/
def Obligations.OnlyUnrecognizedWordsAreReported : Prop :=
  ∀ (s t : State) (keys : Keys) (r : Option Byte), hostMove (.step keys r) s = .next t →
    ((∃ p w, t.report = .unknownOpcode p w) ↔ ∃ op, s.fetch = .ok op ∧ recognized op = false)
end

