-- ==== Sys2Proof/Laws/Decode.lean ====
section
/-! SUPPORT. The fields of the words the encoder builds, and bytes against words. Words and fields are
compared as numbers: a word is `g * 4096 + x * 256 + y * 16 + n`, a field is a quotient and a
remainder of it (30_encoding R61). -/

namespace Sys2Proof

/-! ## Words as numbers -/

/-- A concatenation as a number (00_scope, Notation: `{a, b}` puts `a` in the high bits). -/
theorem toNat_concat {w v : Nat} (a : BitVec w) (b : BitVec v) :
    (a ++ b).toNat = a.toNat * 2 ^ v + b.toNat := by
  rw [BitVec.toNat_append, ← Nat.shiftLeft_add_eq_or_of_lt b.isLt, Nat.shiftLeft_eq]

theorem regField_toNat (x : Reg) : (regField x).toNat = x.val := by
  simp [regField]

theorem wordNNN_toNat (g : Nibble) (nnn : Imm12) :
    (wordNNN g nnn).toNat = g.toNat * 4096 + nnn.toNat := toNat_concat g nnn

theorem wordXKK_toNat (g : Nibble) (x : Reg) (kk : Byte) :
    (wordXKK g x kk).toNat = g.toNat * 4096 + x.val * 256 + kk.toNat := by
  have h1 : (wordXKK g x kk).toNat = _ := toNat_concat g (regField x ++ kk : BitVec 12)
  have h2 : (regField x ++ kk : BitVec 12).toNat = _ := toNat_concat (regField x) kk
  rw [h1, h2, regField_toNat]
  omega

theorem wordXYN_toNat (g : Nibble) (x y : Reg) (n : Nibble) :
    (wordXYN g x y n).toNat = g.toNat * 4096 + x.val * 256 + y.val * 16 + n.toNat := by
  have h1 : (wordXYN g x y n).toNat = _ :=
    toNat_concat g (regField x ++ (regField y ++ n : BitVec 8) : BitVec 12)
  have h2 : (regField x ++ (regField y ++ n : BitVec 8) : BitVec 12).toNat = _ :=
    toNat_concat (regField x) (regField y ++ n : BitVec 8)
  have h3 : (regField y ++ n : BitVec 8).toNat = _ := toNat_concat (regField y) n
  rw [h1, h2, h3, regField_toNat, regField_toNat]
  omega

/-! ## Fields as numbers -/

theorem fieldG_toNat (op : Word) : (fieldG op).toNat = op.toNat / 4096 := by
  have := op.isLt
  simp [fieldG, Nat.shiftRight_eq_div_pow]
  omega

theorem fieldX_val (op : Word) : (fieldX op).val = op.toNat / 256 % 16 := by
  simp [fieldX, Nat.shiftRight_eq_div_pow]

theorem fieldY_val (op : Word) : (fieldY op).val = op.toNat / 16 % 16 := by
  simp [fieldY, Nat.shiftRight_eq_div_pow]

theorem fieldN_toNat (op : Word) : (fieldN op).toNat = op.toNat % 16 := by simp [fieldN]

theorem fieldKK_toNat (op : Word) : (fieldKK op).toNat = op.toNat % 256 := by simp [fieldKK]

theorem fieldNNN_toNat (op : Word) : (fieldNNN op).toNat = op.toNat % 4096 := by simp [fieldNNN]

/-! ## The fields of the encoder's words -/

@[simp] theorem fieldG_wordNNN (g : Nibble) (nnn : Imm12) : fieldG (wordNNN g nnn) = g := by
  have := nnn.isLt
  apply BitVec.eq_of_toNat_eq
  rw [fieldG_toNat, wordNNN_toNat]
  omega

@[simp] theorem fieldNNN_wordNNN (g : Nibble) (nnn : Imm12) : fieldNNN (wordNNN g nnn) = nnn := by
  have := nnn.isLt
  apply BitVec.eq_of_toNat_eq
  rw [fieldNNN_toNat, wordNNN_toNat]
  omega

@[simp] theorem fieldG_wordXKK (g : Nibble) (x : Reg) (kk : Byte) : fieldG (wordXKK g x kk) = g := by
  have := kk.isLt
  apply BitVec.eq_of_toNat_eq
  rw [fieldG_toNat, wordXKK_toNat]
  omega

@[simp] theorem fieldX_wordXKK (g : Nibble) (x : Reg) (kk : Byte) : fieldX (wordXKK g x kk) = x := by
  have := kk.isLt
  apply Fin.ext
  rw [fieldX_val, wordXKK_toNat]
  omega

@[simp] theorem fieldKK_wordXKK (g : Nibble) (x : Reg) (kk : Byte) : fieldKK (wordXKK g x kk) = kk := by
  have := kk.isLt
  apply BitVec.eq_of_toNat_eq
  rw [fieldKK_toNat, wordXKK_toNat]
  omega

@[simp] theorem fieldG_wordXYN (g : Nibble) (x y : Reg) (n : Nibble) : fieldG (wordXYN g x y n) = g := by
  have := n.isLt
  apply BitVec.eq_of_toNat_eq
  rw [fieldG_toNat, wordXYN_toNat]
  omega

@[simp] theorem fieldX_wordXYN (g : Nibble) (x y : Reg) (n : Nibble) : fieldX (wordXYN g x y n) = x := by
  have := n.isLt
  apply Fin.ext
  rw [fieldX_val, wordXYN_toNat]
  omega

@[simp] theorem fieldY_wordXYN (g : Nibble) (x y : Reg) (n : Nibble) : fieldY (wordXYN g x y n) = y := by
  have := n.isLt
  apply Fin.ext
  rw [fieldY_val, wordXYN_toNat]
  omega

@[simp] theorem fieldN_wordXYN (g : Nibble) (x y : Reg) (n : Nibble) : fieldN (wordXYN g x y n) = n := by
  have := n.isLt
  apply BitVec.eq_of_toNat_eq
  rw [fieldN_toNat, wordXYN_toNat]
  omega

/-! ## Bytes and words -/

/-- The number of a word of two bytes (20_memory R45). -/
theorem bytesToWord_toNat (hi lo : Byte) : (bytesToWord hi lo).toNat = hi.toNat * 256 + lo.toNat :=
  toNat_concat hi lo

theorem hiByte_toNat (w : Word) : (hiByte w).toNat = w.toNat / 256 := by
  have := w.isLt
  simp [hiByte, Nat.shiftRight_eq_div_pow]
  omega

theorem loByte_toNat (w : Word) : (loByte w).toNat = w.toNat % 256 := by simp [loByte]

/-- A word is its two bytes, the high one first. -/
@[simp] theorem bytesToWord_hiByte_loByte (w : Word) : bytesToWord (hiByte w) (loByte w) = w := by
  apply BitVec.eq_of_toNat_eq
  rw [bytesToWord_toNat, hiByte_toNat, loByte_toNat]
  omega

@[simp] theorem hiByte_bytesToWord (hi lo : Byte) : hiByte (bytesToWord hi lo) = hi := by
  have := lo.isLt
  apply BitVec.eq_of_toNat_eq
  rw [hiByte_toNat, bytesToWord_toNat]
  omega

@[simp] theorem loByte_bytesToWord (hi lo : Byte) : loByte (bytesToWord hi lo) = lo := by
  have := lo.isLt
  apply BitVec.eq_of_toNat_eq
  rw [loByte_toNat, bytesToWord_toNat]
  omega

end Sys2Proof
end

