-- ==== Sys2Proof/Laws/Memory.lean ====
section
/-! SUPPORT. The laws of memory: a read after a write, the canonical form, and that the form makes
equal memories equal lists. -/

namespace Sys2Proof.Machine

/-! ## Reading what was written -/

theorem Memory.read_below {lo : Nat} {m : Memory} (h : Memory.wfFrom lo m = true) {a : Nat} (ha : a < lo) :
    m.read a = Memory.unlisted a := by
  induction m generalizing lo with
  | nil => rfl
  | cons c m ih =>
    obtain ⟨a', b⟩ := c
    simp only [Memory.wfFrom, Bool.and_eq_true, decide_eq_true_eq] at h
    obtain ⟨⟨⟨h1, -⟩, -⟩, h4⟩ := h
    have : a ≠ a' := by omega
    simpa [Memory.read, this] using ih h4 (by omega)

theorem Memory.read_cons {lo : Nat} {m : Memory} (h : Memory.wfFrom lo m = true) {a : Nat} (ha : a < lo)
    (v : Byte) (a' : Nat) : (Memory.cons a v m).read a' = if a' = a then v else m.read a' := by
  unfold Memory.cons
  split
  · split
    · next h1 h2 => subst h2; rw [Memory.read_below h ha, h1]
    · rfl
  · simp [Memory.read]

theorem Memory.wfFrom_mono {lo lo' : Nat} {m : Memory} (h : Memory.wfFrom lo m = true) (hl : lo' ≤ lo) :
    Memory.wfFrom lo' m = true := by
  cases m with
  | nil => rfl
  | cons c m =>
    simp only [Memory.wfFrom, Bool.and_eq_true, decide_eq_true_eq] at h ⊢
    exact ⟨⟨⟨by omega, h.1.1.2⟩, h.1.2⟩, h.2⟩

theorem Memory.read_write_from {lo : Nat} {m : Memory} (h : Memory.wfFrom lo m = true) (a : Nat) (v : Byte)
    (a' : Nat) : (m.write a v).read a' = if a' = a then v else m.read a' := by
  induction m generalizing lo with
  | nil => exact Memory.read_cons (lo := a + 1) rfl (by omega) v a'
  | cons c m ih =>
    obtain ⟨b, w⟩ := c
    have hc := h
    simp only [Memory.wfFrom, Bool.and_eq_true, decide_eq_true_eq] at h
    obtain ⟨⟨⟨h1, h2⟩, h3⟩, h4⟩ := h
    unfold Memory.write
    split
    · next hab =>
      refine Memory.read_cons (lo := b) ?_ hab v a'
      simp [Memory.wfFrom, h2, h4]
      simpa using h3
    · split
      · next hab =>
        subst hab
        rw [Memory.read_cons h4 (by omega) v a']
        split
        · rfl
        · next hne => simp [Memory.read, hne]
      · simp only [Memory.read, ih h4]
        split
        · next hb => rw [if_neg (by omega)]
        · rfl

/-- A read after a write: the byte written at its address, every other address as before. -/
theorem Memory.read_write {m : Memory} (h : m.wf = true) (a : Nat) (v : Byte) (a' : Nat) :
    (m.write a v).read a' = if a' = a then v else m.read a' := Memory.read_write_from h a v a'

/-! ## The canonical form is kept -/

theorem Memory.cons_wf {lo a : Nat} {m : Memory} (h : Memory.wfFrom (a + 1) m = true) (hlo : lo ≤ a)
    (ha : a < Config.memSize) (v : Byte) : Memory.wfFrom lo (Memory.cons a v m) = true := by
  unfold Memory.cons
  split
  · exact Memory.wfFrom_mono h (by omega)
  · next hv => simp [Memory.wfFrom, hlo, ha, h, hv]

theorem Memory.write_wfFrom {lo a : Nat} {m : Memory} (h : Memory.wfFrom lo m = true) (hlo : lo ≤ a)
    (ha : a < Config.memSize) (v : Byte) : Memory.wfFrom lo (m.write a v) = true := by
  induction m generalizing lo with
  | nil => exact Memory.cons_wf rfl hlo ha v
  | cons c m ih =>
    obtain ⟨b, w⟩ := c
    simp only [Memory.wfFrom, Bool.and_eq_true, decide_eq_true_eq] at h
    obtain ⟨⟨⟨h1, h2⟩, h3⟩, h4⟩ := h
    unfold Memory.write
    split
    · next hab =>
      refine Memory.cons_wf ?_ hlo ha v
      simp only [Memory.wfFrom, Bool.and_eq_true, decide_eq_true_eq]
      exact ⟨⟨⟨by omega, h2⟩, h3⟩, h4⟩
    · split
      · next hab => subst hab; exact Memory.cons_wf h4 hlo ha v
      · simp only [Memory.wfFrom, Bool.and_eq_true, decide_eq_true_eq]
        exact ⟨⟨⟨h1, h2⟩, h3⟩, ih h4 (by omega)⟩

/-- A write inside the address space keeps the canonical form. -/
theorem Memory.write_wf {m : Memory} (h : m.wf = true) {a : Nat} (ha : a < Config.memSize) (v : Byte) :
    (m.write a v).wf = true := Memory.write_wfFrom h (Nat.zero_le a) ha v

/-- Writing bytes inside the address space keeps the canonical form. -/
theorem Memory.writeBytes_wf {m : Memory} (h : m.wf = true) {a : Nat} {bs : List Byte}
    (ha : a + bs.length ≤ Config.memSize) : (m.writeBytes a bs).wf = true := by
  induction bs generalizing m a with
  | nil => exact h
  | cons b bs ih =>
    simp only [List.length_cons] at ha
    exact ih (Memory.write_wf h (by omega) b) (by omega)

/-- The memory with nothing listed, that of `State.reset`, is in canonical form. -/
theorem Memory.nil_wf : Memory.wf [] = true := rfl

theorem State.reset_wf : State.reset.M.wf = true := rfl

/-! ## Reading after writing bytes -/

/-- After bytes are written from `a`, an address holds the byte written to it, or what it held. -/
theorem Memory.read_writeBytes {m : Memory} (h : m.wf = true) {a : Nat} {bs : List Byte}
    (ha : a + bs.length ≤ Config.memSize) (a' : Nat) :
    (m.writeBytes a bs).read a' =
      if a ≤ a' ∧ a' < a + bs.length then bs.getD (a' - a) 0 else m.read a' := by
  induction bs generalizing m a with
  | nil => simp only [Memory.writeBytes, List.length_nil]; split <;> first | omega | rfl
  | cons b bs ih =>
    simp only [List.length_cons] at ha ⊢
    simp only [Memory.writeBytes]
    rw [ih (Memory.write_wf h (by omega) b) (by omega), Memory.read_write h]
    by_cases h1 : a' = a
    · subst h1
      simp [show a' ≤ a' ∧ a' < a' + (bs.length + 1) by omega]
    · by_cases h2 : a + 1 ≤ a' ∧ a' < a + 1 + bs.length
      · have h3 : a ≤ a' ∧ a' < a + (bs.length + 1) := by omega
        have h4 : a' - a = (a' - (a + 1)) + 1 := by omega
        rw [if_pos h2, if_pos h3, h4, List.getD_cons_succ]
      · have h3 : ¬(a ≤ a' ∧ a' < a + (bs.length + 1)) := by omega
        rw [if_neg h2, if_neg h3, if_neg h1]

@[simp] theorem Memory.readBytes_length (m : Memory) (a n : Nat) : (m.readBytes a n).length = n := by
  induction n generalizing a with
  | zero => rfl
  | succ n ih => simp [Memory.readBytes, ih]

theorem Memory.getElem_readBytes (m : Memory) (a n k : Nat) (hk : k < (m.readBytes a n).length) :
    (m.readBytes a n)[k] = m.read (a + k) := by
  induction n generalizing a k with
  | zero => simp at hk
  | succ n ih =>
    cases k with
    | zero => rfl
    | succ k => simp [Memory.readBytes, ih]; congr 1; omega

/-! ## Equal memories are equal lists -/

theorem Memory.eq_of_read_from {lo : Nat} {m m' : Memory} (h : Memory.wfFrom lo m = true)
    (h' : Memory.wfFrom lo m' = true) (hr : ∀ a, m.read a = m'.read a) : m = m' := by
  induction m generalizing lo m' with
  | nil =>
    cases m' with
    | nil => rfl
    | cons c m' =>
      obtain ⟨a, b⟩ := c
      simp only [Memory.wfFrom, Bool.and_eq_true, decide_eq_true_eq] at h'
      have := hr a
      simp [Memory.read] at this
      simp [this] at h'
  | cons c m ih =>
    obtain ⟨a, b⟩ := c
    have hc := h
    simp only [Memory.wfFrom, Bool.and_eq_true, decide_eq_true_eq, bne_iff_ne] at h
    obtain ⟨⟨⟨h1, h2⟩, h3⟩, h4⟩ := h
    cases m' with
    | nil =>
      have := hr a
      simp [Memory.read] at this
      exact absurd this h3
    | cons c' m' =>
      obtain ⟨a', b'⟩ := c'
      have hc' := h'
      simp only [Memory.wfFrom, Bool.and_eq_true, decide_eq_true_eq, bne_iff_ne] at h'
      obtain ⟨⟨⟨h1', h2'⟩, h3'⟩, h4'⟩ := h'
      have hread := hr a
      have hread' := hr a'
      simp only [Memory.read] at hread hread'
      rcases Nat.lt_trichotomy a a' with hlt | heq | hgt
      · rw [if_pos trivial, if_neg (by omega), Memory.read_below h4' (by omega)] at hread
        exact absurd hread h3
      · subst heq
        simp only [if_true] at hread
        subst hread
        congr 1
        refine ih h4 h4' fun q => ?_
        by_cases hq : q = a
        · subst hq; rw [Memory.read_below h4 (by omega), Memory.read_below h4' (by omega)]
        · simpa [Memory.read, hq] using hr q
      · rw [if_neg (by omega), Memory.read_below h4 (by omega), if_pos trivial] at hread'
        exact absurd hread'.symm h3'

/-- Two memories in canonical form that read the same everywhere are the same list. -/
theorem Memory.eq_of_read {m m' : Memory} (h : m.wf = true) (h' : m'.wf = true)
    (hr : ∀ a, m.read a = m'.read a) : m = m' := Memory.eq_of_read_from h h' hr

/-! ## Bound checks -/

/-- No byte of the access lies outside memory. -/
theorem firstOutside_none_iff (a n : Nat) : firstOutside a n = none ↔ n = 0 ∨ a + n ≤ 0x1000 := by
  unfold firstOutside Config.memSize
  split
  · simp [*]
  · split
    · simp [*]
    · split <;> simp <;> omega

/-- The lowest byte of the access outside memory. -/
theorem firstOutside_some_iff (a n b : Nat) :
    firstOutside a n = some b ↔ (n ≠ 0 ∧ 0x1000 < a + n) ∧ b = if a < 0x1000 then 0x1000 else a := by
  unfold firstOutside Config.memSize
  split
  · simp [*]
  · split
    · simp; omega
    · split <;> simp [*, eq_comm] <;> omega

end Sys2Proof.Machine
end

