-- ==== Sys2Proof/Laws/State.lean ====
section
/-! SUPPORT. One lemma per field and state update: what the field holds after the update. No later proof
unfolds a record update. -/

namespace Sys2Proof.Machine

/-! ## setV -/

@[simp] theorem State.setV_M (s : State) (x : Reg) (b : Byte) : (s.setV x b).M = s.M := rfl
theorem State.setV_V (s : State) (x : Reg) (b : Byte) : (s.setV x b).V = s.V.set x b := rfl
@[simp] theorem State.setV_I (s : State) (x : Reg) (b : Byte) : (s.setV x b).I = s.I := rfl
@[simp] theorem State.setV_pc (s : State) (x : Reg) (b : Byte) : (s.setV x b).pc = s.pc := rfl
@[simp] theorem State.setV_S (s : State) (x : Reg) (b : Byte) : (s.setV x b).S = s.S := rfl
@[simp] theorem State.setV_sp (s : State) (x : Reg) (b : Byte) : (s.setV x b).sp = s.sp := rfl
@[simp] theorem State.setV_FB (s : State) (x : Reg) (b : Byte) : (s.setV x b).FB = s.FB := rfl
@[simp] theorem State.setV_DT (s : State) (x : Reg) (b : Byte) : (s.setV x b).DT = s.DT := rfl
@[simp] theorem State.setV_ST (s : State) (x : Reg) (b : Byte) : (s.setV x b).ST = s.ST := rfl
@[simp] theorem State.setV_K (s : State) (x : Reg) (b : Byte) : (s.setV x b).K = s.K := rfl
@[simp] theorem State.setV_rnd (s : State) (x : Reg) (b : Byte) : (s.setV x b).rnd = s.rnd := rfl
@[simp] theorem State.setV_draws (s : State) (x : Reg) (b : Byte) : (s.setV x b).draws = s.draws := rfl
@[simp] theorem State.setV_schedule (s : State) (x : Reg) (b : Byte) : (s.setV x b).schedule = s.schedule := rfl
@[simp] theorem State.setV_report (s : State) (x : Reg) (b : Byte) : (s.setV x b).report = s.report := rfl

/-! A register write changes neither the inputs nor what is fetched. -/

@[simp] theorem State.setV_randomByte (s : State) (x : Reg) (b : Byte) :
    (s.setV x b).randomByte = s.randomByte := rfl
@[simp] theorem State.setV_keyDown (s : State) (x : Reg) (b : Byte) (k : Reg) :
    (s.setV x b).keyDown k = s.keyDown k := rfl
@[simp] theorem State.setV_lowestKey (s : State) (x : Reg) (b : Byte) :
    (s.setV x b).lowestKey = s.lowestKey := rfl
@[simp] theorem State.setV_fetch (s : State) (x : Reg) (b : Byte) : (s.setV x b).fetch = s.fetch := rfl

/-! ## goto -/

@[simp] theorem State.goto_M (s : State) (a : Word) : (s.goto a).M = s.M := rfl
@[simp] theorem State.goto_V (s : State) (a : Word) : (s.goto a).V = s.V := rfl
@[simp] theorem State.goto_I (s : State) (a : Word) : (s.goto a).I = s.I := rfl
@[simp] theorem State.goto_pc (s : State) (a : Word) : (s.goto a).pc = a := rfl
@[simp] theorem State.goto_S (s : State) (a : Word) : (s.goto a).S = s.S := rfl
@[simp] theorem State.goto_sp (s : State) (a : Word) : (s.goto a).sp = s.sp := rfl
@[simp] theorem State.goto_FB (s : State) (a : Word) : (s.goto a).FB = s.FB := rfl
@[simp] theorem State.goto_DT (s : State) (a : Word) : (s.goto a).DT = s.DT := rfl
@[simp] theorem State.goto_ST (s : State) (a : Word) : (s.goto a).ST = s.ST := rfl
@[simp] theorem State.goto_K (s : State) (a : Word) : (s.goto a).K = s.K := rfl
@[simp] theorem State.goto_rnd (s : State) (a : Word) : (s.goto a).rnd = s.rnd := rfl
@[simp] theorem State.goto_draws (s : State) (a : Word) : (s.goto a).draws = s.draws := rfl
@[simp] theorem State.goto_schedule (s : State) (a : Word) : (s.goto a).schedule = s.schedule := rfl
@[simp] theorem State.goto_report (s : State) (a : Word) : (s.goto a).report = .ok := rfl

/-! ## advance -/

@[simp] theorem State.advance_M (s : State) : s.advance.M = s.M := rfl
@[simp] theorem State.advance_V (s : State) : s.advance.V = s.V := rfl
@[simp] theorem State.advance_I (s : State) : s.advance.I = s.I := rfl
@[simp] theorem State.advance_pc (s : State) : s.advance.pc = s.pc + 2 := rfl
@[simp] theorem State.advance_S (s : State) : s.advance.S = s.S := rfl
@[simp] theorem State.advance_sp (s : State) : s.advance.sp = s.sp := rfl
@[simp] theorem State.advance_FB (s : State) : s.advance.FB = s.FB := rfl
@[simp] theorem State.advance_DT (s : State) : s.advance.DT = s.DT := rfl
@[simp] theorem State.advance_ST (s : State) : s.advance.ST = s.ST := rfl
@[simp] theorem State.advance_K (s : State) : s.advance.K = s.K := rfl
@[simp] theorem State.advance_rnd (s : State) : s.advance.rnd = s.rnd := rfl
@[simp] theorem State.advance_draws (s : State) : s.advance.draws = s.draws := rfl
@[simp] theorem State.advance_schedule (s : State) : s.advance.schedule = s.schedule := rfl
@[simp] theorem State.advance_report (s : State) : s.advance.report = .ok := rfl

/-! ## suspend -/

@[simp] theorem State.suspend_M (s : State) : s.suspend.M = s.M := rfl
@[simp] theorem State.suspend_V (s : State) : s.suspend.V = s.V := rfl
@[simp] theorem State.suspend_I (s : State) : s.suspend.I = s.I := rfl
@[simp] theorem State.suspend_pc (s : State) : s.suspend.pc = s.pc := rfl
@[simp] theorem State.suspend_S (s : State) : s.suspend.S = s.S := rfl
@[simp] theorem State.suspend_sp (s : State) : s.suspend.sp = s.sp := rfl
@[simp] theorem State.suspend_FB (s : State) : s.suspend.FB = s.FB := rfl
@[simp] theorem State.suspend_DT (s : State) : s.suspend.DT = s.DT := rfl
@[simp] theorem State.suspend_ST (s : State) : s.suspend.ST = s.ST := rfl
@[simp] theorem State.suspend_K (s : State) : s.suspend.K = s.K := rfl
@[simp] theorem State.suspend_rnd (s : State) : s.suspend.rnd = s.rnd := rfl
@[simp] theorem State.suspend_draws (s : State) : s.suspend.draws = s.draws := rfl
@[simp] theorem State.suspend_schedule (s : State) : s.suspend.schedule = s.schedule := rfl
@[simp] theorem State.suspend_report (s : State) : s.suspend.report = .suspended s.pc := rfl

/-! ## advanceUnknown -/

@[simp] theorem State.advanceUnknown_M (s : State) (op : Word) : (s.advanceUnknown op).M = s.M := rfl
@[simp] theorem State.advanceUnknown_V (s : State) (op : Word) : (s.advanceUnknown op).V = s.V := rfl
@[simp] theorem State.advanceUnknown_I (s : State) (op : Word) : (s.advanceUnknown op).I = s.I := rfl
@[simp] theorem State.advanceUnknown_pc (s : State) (op : Word) : (s.advanceUnknown op).pc = s.pc + 2 := rfl
@[simp] theorem State.advanceUnknown_S (s : State) (op : Word) : (s.advanceUnknown op).S = s.S := rfl
@[simp] theorem State.advanceUnknown_sp (s : State) (op : Word) : (s.advanceUnknown op).sp = s.sp := rfl
@[simp] theorem State.advanceUnknown_FB (s : State) (op : Word) : (s.advanceUnknown op).FB = s.FB := rfl
@[simp] theorem State.advanceUnknown_DT (s : State) (op : Word) : (s.advanceUnknown op).DT = s.DT := rfl
@[simp] theorem State.advanceUnknown_ST (s : State) (op : Word) : (s.advanceUnknown op).ST = s.ST := rfl
@[simp] theorem State.advanceUnknown_K (s : State) (op : Word) : (s.advanceUnknown op).K = s.K := rfl
@[simp] theorem State.advanceUnknown_rnd (s : State) (op : Word) : (s.advanceUnknown op).rnd = s.rnd := rfl
@[simp] theorem State.advanceUnknown_draws (s : State) (op : Word) : (s.advanceUnknown op).draws = s.draws := rfl
@[simp] theorem State.advanceUnknown_schedule (s : State) (op : Word) : (s.advanceUnknown op).schedule = s.schedule := rfl
@[simp] theorem State.advanceUnknown_report (s : State) (op : Word) : (s.advanceUnknown op).report = .unknownOpcode s.pc op := rfl

/-! ## storeAtI -/

@[simp] theorem State.storeAtI_M (s : State) (bs : List Byte) : (s.storeAtI bs).M = s.M.writeBytes s.I.toNat bs := rfl
@[simp] theorem State.storeAtI_V (s : State) (bs : List Byte) : (s.storeAtI bs).V = s.V := rfl
@[simp] theorem State.storeAtI_I (s : State) (bs : List Byte) : (s.storeAtI bs).I = s.I := rfl
@[simp] theorem State.storeAtI_pc (s : State) (bs : List Byte) : (s.storeAtI bs).pc = s.pc := rfl
@[simp] theorem State.storeAtI_S (s : State) (bs : List Byte) : (s.storeAtI bs).S = s.S := rfl
@[simp] theorem State.storeAtI_sp (s : State) (bs : List Byte) : (s.storeAtI bs).sp = s.sp := rfl
@[simp] theorem State.storeAtI_FB (s : State) (bs : List Byte) : (s.storeAtI bs).FB = s.FB := rfl
@[simp] theorem State.storeAtI_DT (s : State) (bs : List Byte) : (s.storeAtI bs).DT = s.DT := rfl
@[simp] theorem State.storeAtI_ST (s : State) (bs : List Byte) : (s.storeAtI bs).ST = s.ST := rfl
@[simp] theorem State.storeAtI_K (s : State) (bs : List Byte) : (s.storeAtI bs).K = s.K := rfl
@[simp] theorem State.storeAtI_rnd (s : State) (bs : List Byte) : (s.storeAtI bs).rnd = s.rnd := rfl
@[simp] theorem State.storeAtI_draws (s : State) (bs : List Byte) : (s.storeAtI bs).draws = s.draws := rfl
@[simp] theorem State.storeAtI_schedule (s : State) (bs : List Byte) : (s.storeAtI bs).schedule = s.schedule := rfl
@[simp] theorem State.storeAtI_report (s : State) (bs : List Byte) : (s.storeAtI bs).report = s.report := rfl

/-! ## advanceI -/

@[simp] theorem State.advanceI_M (s : State) (k : Nat) : (s.advanceI k).M = s.M := rfl
@[simp] theorem State.advanceI_V (s : State) (k : Nat) : (s.advanceI k).V = s.V := rfl
@[simp] theorem State.advanceI_I (s : State) (k : Nat) : (s.advanceI k).I = s.I + BitVec.ofNat 16 k := rfl
@[simp] theorem State.advanceI_pc (s : State) (k : Nat) : (s.advanceI k).pc = s.pc := rfl
@[simp] theorem State.advanceI_S (s : State) (k : Nat) : (s.advanceI k).S = s.S := rfl
@[simp] theorem State.advanceI_sp (s : State) (k : Nat) : (s.advanceI k).sp = s.sp := rfl
@[simp] theorem State.advanceI_FB (s : State) (k : Nat) : (s.advanceI k).FB = s.FB := rfl
@[simp] theorem State.advanceI_DT (s : State) (k : Nat) : (s.advanceI k).DT = s.DT := rfl
@[simp] theorem State.advanceI_ST (s : State) (k : Nat) : (s.advanceI k).ST = s.ST := rfl
@[simp] theorem State.advanceI_K (s : State) (k : Nat) : (s.advanceI k).K = s.K := rfl
@[simp] theorem State.advanceI_rnd (s : State) (k : Nat) : (s.advanceI k).rnd = s.rnd := rfl
@[simp] theorem State.advanceI_draws (s : State) (k : Nat) : (s.advanceI k).draws = s.draws := rfl
@[simp] theorem State.advanceI_schedule (s : State) (k : Nat) : (s.advanceI k).schedule = s.schedule := rfl
@[simp] theorem State.advanceI_report (s : State) (k : Nat) : (s.advanceI k).report = s.report := rfl

/-! ## sample -/

@[simp] theorem State.sample_M (s : State) (ks : Keys) (r : Option Byte) : (s.sample ks r).M = s.M := rfl
@[simp] theorem State.sample_V (s : State) (ks : Keys) (r : Option Byte) : (s.sample ks r).V = s.V := rfl
@[simp] theorem State.sample_I (s : State) (ks : Keys) (r : Option Byte) : (s.sample ks r).I = s.I := rfl
@[simp] theorem State.sample_pc (s : State) (ks : Keys) (r : Option Byte) : (s.sample ks r).pc = s.pc := rfl
@[simp] theorem State.sample_S (s : State) (ks : Keys) (r : Option Byte) : (s.sample ks r).S = s.S := rfl
@[simp] theorem State.sample_sp (s : State) (ks : Keys) (r : Option Byte) : (s.sample ks r).sp = s.sp := rfl
@[simp] theorem State.sample_FB (s : State) (ks : Keys) (r : Option Byte) : (s.sample ks r).FB = s.FB := rfl
@[simp] theorem State.sample_DT (s : State) (ks : Keys) (r : Option Byte) : (s.sample ks r).DT = s.DT := rfl
@[simp] theorem State.sample_ST (s : State) (ks : Keys) (r : Option Byte) : (s.sample ks r).ST = s.ST := rfl
@[simp] theorem State.sample_K (s : State) (ks : Keys) (r : Option Byte) : (s.sample ks r).K = ks := rfl
@[simp] theorem State.sample_rnd (s : State) (ks : Keys) (r : Option Byte) : (s.sample ks r).rnd = r := rfl
@[simp] theorem State.sample_draws (s : State) (ks : Keys) (r : Option Byte) : (s.sample ks r).draws = s.draws := rfl
@[simp] theorem State.sample_schedule (s : State) (ks : Keys) (r : Option Byte) : (s.sample ks r).schedule = s.schedule := rfl
@[simp] theorem State.sample_report (s : State) (ks : Keys) (r : Option Byte) : (s.sample ks r).report = s.report := rfl

/-! ## tick -/

@[simp] theorem tick_M (s : State) : (tick s).M = s.M := rfl
@[simp] theorem tick_V (s : State) : (tick s).V = s.V := rfl
@[simp] theorem tick_I (s : State) : (tick s).I = s.I := rfl
@[simp] theorem tick_pc (s : State) : (tick s).pc = s.pc := rfl
@[simp] theorem tick_S (s : State) : (tick s).S = s.S := rfl
@[simp] theorem tick_sp (s : State) : (tick s).sp = s.sp := rfl
@[simp] theorem tick_FB (s : State) : (tick s).FB = s.FB := rfl
@[simp] theorem tick_DT (s : State) : (tick s).DT = timerDown s.DT := rfl
@[simp] theorem tick_ST (s : State) : (tick s).ST = timerDown s.ST := rfl
@[simp] theorem tick_K (s : State) : (tick s).K = s.K := rfl
@[simp] theorem tick_rnd (s : State) : (tick s).rnd = s.rnd := rfl
@[simp] theorem tick_draws (s : State) : (tick s).draws = s.draws := rfl
@[simp] theorem tick_schedule (s : State) : (tick s).schedule = s.schedule := rfl
@[simp] theorem tick_report (s : State) : (tick s).report = .ticked (s.ST == 1) := rfl

/-! ## skipIf -/

@[simp] theorem State.skipIf_M (s : State) (c : Bool) : (s.skipIf c).M = s.M := rfl
@[simp] theorem State.skipIf_V (s : State) (c : Bool) : (s.skipIf c).V = s.V := rfl
@[simp] theorem State.skipIf_I (s : State) (c : Bool) : (s.skipIf c).I = s.I := rfl
@[simp] theorem State.skipIf_pc (s : State) (c : Bool) : (s.skipIf c).pc = if c then s.pc + 4 else s.pc + 2 := rfl
@[simp] theorem State.skipIf_S (s : State) (c : Bool) : (s.skipIf c).S = s.S := rfl
@[simp] theorem State.skipIf_sp (s : State) (c : Bool) : (s.skipIf c).sp = s.sp := rfl
@[simp] theorem State.skipIf_FB (s : State) (c : Bool) : (s.skipIf c).FB = s.FB := rfl
@[simp] theorem State.skipIf_DT (s : State) (c : Bool) : (s.skipIf c).DT = s.DT := rfl
@[simp] theorem State.skipIf_ST (s : State) (c : Bool) : (s.skipIf c).ST = s.ST := rfl
@[simp] theorem State.skipIf_K (s : State) (c : Bool) : (s.skipIf c).K = s.K := rfl
@[simp] theorem State.skipIf_rnd (s : State) (c : Bool) : (s.skipIf c).rnd = s.rnd := rfl
@[simp] theorem State.skipIf_draws (s : State) (c : Bool) : (s.skipIf c).draws = s.draws := rfl
@[simp] theorem State.skipIf_schedule (s : State) (c : Bool) : (s.skipIf c).schedule = s.schedule := rfl
@[simp] theorem State.skipIf_report (s : State) (c : Bool) : (s.skipIf c).report = .ok := rfl

/-! ## drawRandom -/

@[simp] theorem State.drawRandom_M (s : State) : s.drawRandom.M = s.M := rfl
@[simp] theorem State.drawRandom_V (s : State) : s.drawRandom.V = s.V := rfl
@[simp] theorem State.drawRandom_I (s : State) : s.drawRandom.I = s.I := rfl
@[simp] theorem State.drawRandom_pc (s : State) : s.drawRandom.pc = s.pc := rfl
@[simp] theorem State.drawRandom_S (s : State) : s.drawRandom.S = s.S := rfl
@[simp] theorem State.drawRandom_sp (s : State) : s.drawRandom.sp = s.sp := rfl
@[simp] theorem State.drawRandom_FB (s : State) : s.drawRandom.FB = s.FB := rfl
@[simp] theorem State.drawRandom_DT (s : State) : s.drawRandom.DT = s.DT := rfl
@[simp] theorem State.drawRandom_ST (s : State) : s.drawRandom.ST = s.ST := rfl
@[simp] theorem State.drawRandom_K (s : State) : s.drawRandom.K = s.K := rfl
@[simp] theorem State.drawRandom_rnd (s : State) : s.drawRandom.rnd = s.rnd := rfl
@[simp] theorem State.drawRandom_draws (s : State) :
    s.drawRandom.draws = if s.rnd.isSome then s.draws else s.draws + 1 := rfl
@[simp] theorem State.drawRandom_schedule (s : State) : s.drawRandom.schedule = s.schedule := rfl
@[simp] theorem State.drawRandom_report (s : State) : s.drawRandom.report = s.report := rfl

/-! ## boot -/

@[simp] theorem State.boot_M (s : State) (p : List Byte) : (s.boot p).M = Memory.writeBytes [] Config.progBase p := rfl
@[simp] theorem State.boot_V (s : State) (p : List Byte) : (s.boot p).V = Vector.replicate 16 0 := rfl
@[simp] theorem State.boot_I (s : State) (p : List Byte) : (s.boot p).I = 0 := rfl
@[simp] theorem State.boot_pc (s : State) (p : List Byte) : (s.boot p).pc = 0x200 := rfl
@[simp] theorem State.boot_S (s : State) (p : List Byte) : (s.boot p).S = Vector.replicate 16 0 := rfl
@[simp] theorem State.boot_sp (s : State) (p : List Byte) : (s.boot p).sp = 0 := rfl
@[simp] theorem State.boot_FB (s : State) (p : List Byte) : (s.boot p).FB = Vector.replicate 32 0 := rfl
@[simp] theorem State.boot_DT (s : State) (p : List Byte) : (s.boot p).DT = 0 := rfl
@[simp] theorem State.boot_ST (s : State) (p : List Byte) : (s.boot p).ST = 0 := rfl
@[simp] theorem State.boot_K (s : State) (p : List Byte) : (s.boot p).K = Vector.replicate 16 false := rfl
@[simp] theorem State.boot_rnd (s : State) (p : List Byte) : (s.boot p).rnd = none := rfl
@[simp] theorem State.boot_draws (s : State) (p : List Byte) : (s.boot p).draws = s.draws := rfl
@[simp] theorem State.boot_schedule (s : State) (p : List Byte) : (s.boot p).schedule = s.schedule := rfl
@[simp] theorem State.boot_report (s : State) (p : List Byte) : (s.boot p).report = .wasReset := rfl

/-! ## Reading registers -/

@[simp] theorem State.getV_eq (s : State) (x : Reg) : s.getV x = s.V[x] := rfl

/-- Writing `V[x]` and reading `V[r]`. -/
@[simp] theorem State.getElem_setV (s : State) (x : Reg) (b : Byte) (r : Nat) (hr : r < 16) :
    (s.setV x b).V[r] = if r = x.val then b else s.V[r] := by
  simp [State.setV, Vector.getElem_set, eq_comm]

end Sys2Proof.Machine
end

