-- ==== Sys2Proof/Laws/Ops.lean ====
section
/-! SUPPORT. One specification lemma per shared operation: what it can do, said once. Later proofs cite
these and do not unfold the operations. -/

namespace Sys2Proof.Machine

/-! ## Results in registers -/

theorem finishReg_next_iff (s t : State) (x : Reg) (b : Byte) :
    finishReg s x b = .next t ↔ t = (s.setV x b).advance := by simp [finishReg, eq_comm]

theorem finishRegFlag_next_iff (s t : State) (x : Reg) (b : Byte) (f : Bool) :
    finishRegFlag s x b f = .next t ↔ t = ((s.setV x b).setV VF (flagByte f)).advance := by
  simp [finishRegFlag, eq_comm]

theorem flagByte_zero_or_one (b : Bool) : flagByte b = 0 ∨ flagByte b = 1 := by cases b <;> simp [flagByte]

@[simp] theorem flagByte_toNat (b : Bool) : (flagByte b).toNat = if b = true then 1 else 0 := by
  cases b <;> simp [flagByte]

/-! ## The call stack -/

/-- A push succeeds exactly when a slot is free; it fills slot sp and counts it. -/
theorem State.push_some_iff (s t : State) (v : Word) :
    s.push v = some t ↔ ∃ h : s.sp.val < 16,
      t = { s with S := s.S.set s.sp.val v, sp := ⟨s.sp.val + 1, Nat.succ_lt_succ h⟩ } := by
  unfold State.push
  split
  · next h => simp [h, eq_comm]
  · next h => simp [h]

theorem State.push_none_iff (s : State) (v : Word) : s.push v = none ↔ s.sp.val = 16 := by
  have := s.sp.isLt
  unfold State.push
  split <;> simp <;> omega

/-- A pop succeeds exactly when an entry is in use; it gives the newest one and leaves its slot. -/
theorem State.pop_some_iff (s : State) (r : Word × State) :
    s.pop = some r ↔ ∃ h : 0 < s.sp.val, r.1 = s.S[s.sp.val - 1]'(by omega) ∧
      r.2 = { s with sp := ⟨s.sp.val - 1, by omega⟩ } := by
  unfold State.pop
  split
  · next h => simp [h, Prod.ext_iff, eq_comm]
  · next h => simp [h]

theorem State.pop_none_iff (s : State) : s.pop = none ↔ s.sp.val = 0 := by
  unfold State.pop
  split <;> simp <;> omega

/-! ## Checked data accesses -/

/-- A checked access goes on exactly when every byte from I lies in memory. -/
theorem withData_next_iff (s t : State) (i : Instr) (n : Nat) (u : State) :
    withData s i n (.next u) = .next t ↔ (n = 0 ∨ s.I.toNat + n ≤ 0x1000) ∧ u = t := by
  unfold withData
  rcases h : firstOutside s.I.toNat n with _ | b
  · simp [(firstOutside_none_iff _ _).1 h]
  · have := (firstOutside_some_iff _ _ _).1 h
    simp [raiseData]
    omega

theorem withData_ok (s : State) (i : Instr) (n : Nat) (go : Result)
    (h : n = 0 ∨ s.I.toNat + n ≤ 0x1000) : withData s i n go = go := by
  simp [withData, (firstOutside_none_iff _ _).2 h]

/-- A checked access outside memory faults with the lowest address above 0xFFF. -/
theorem withData_outside (s : State) (i : Instr) (n : Nat) (go : Result)
    (h : n ≠ 0 ∧ 0x1000 < s.I.toNat + n) : withData s i n go =
      .fault (.memoryData s.pc (encode i) (if s.I.toNat < 0x1000 then 0x1000 else s.I.toNat)) := by
  simp only [withData, (firstOutside_some_iff _ _ _).2 ⟨h, rfl⟩, raiseData]

/-! ## Fetch and cycle -/

theorem State.fetch_ok_iff (s : State) (op : Word) : s.fetch = .ok op ↔
    s.pc.toNat < 0xFFF ∧ op = bytesToWord (s.M.read s.pc.toNat) (s.M.read (s.pc.toNat + 1)) := by
  unfold State.fetch Memory.readWord
  rcases h : firstOutside s.pc.toNat 2 with _ | b
  · have := (firstOutside_none_iff _ _).1 h
    simp [eq_comm]; omega
  · have := (firstOutside_some_iff _ _ _).1 h
    simp; omega

theorem State.fetch_error_iff (s : State) (a : Nat) : s.fetch = .error a ↔
    0xFFF ≤ s.pc.toNat ∧ a = if s.pc.toNat < 0x1000 then 0x1000 else s.pc.toNat := by
  unfold State.fetch Memory.readWord
  rcases h : firstOutside s.pc.toNat 2 with _ | b
  · have := (firstOutside_none_iff _ _).1 h
    simp; omega
  · have := (firstOutside_some_iff _ _ _).1 h
    simp [eq_comm]; omega

/-- A cycle runs the decoded word, or is the fetch fault. -/
theorem cycle_of_fetch {s : State} {op : Word} (h : s.fetch = .ok op) : cycle s = exec (decodeWord op) s := by
  simp [cycle, h]

theorem cycle_of_fetch_error {s : State} {a : Nat} (h : s.fetch = .error a) :
    cycle s = .fault (.memoryFetch s.pc a) := by simp [cycle, h, raiseFetch]

theorem cycle_next {s t : State} (h : cycle s = .next t) :
    ∃ op, s.fetch = .ok op ∧ exec (decodeWord op) s = .next t := by
  rcases hf : s.fetch with a | op
  · simp [cycle_of_fetch_error hf] at h
  · exact ⟨op, rfl, by rw [← cycle_of_fetch hf]; exact h⟩

/-- What one step can be: a Step with the inputs sampled, a Tick, or a Reset. -/
theorem step_next {s t : State} (h : step s = .next t) :
    (s.schedule = [] ∧ cycle { s with rnd := none } = .next t) ∨
    (∃ keys r rest, s.schedule = .step keys r :: rest ∧
      cycle (({ s with schedule := rest } : State).sample keys r) = .next t) ∨
    (∃ rest, s.schedule = .tick :: rest ∧ t = tick { s with schedule := rest }) ∨
    (∃ p rest, s.schedule = .reset p :: rest ∧ p.length ≤ 3584 ∧
      t = ({ s with schedule := rest } : State).boot p) := by
  unfold step at h
  split at h
  · next hs => exact .inl ⟨hs, h⟩
  · next e rest hs =>
    cases e with
    | step keys r => exact .inr (.inl ⟨keys, r, rest, hs, h⟩)
    | tick => exact .inr (.inr (.inl ⟨rest, hs, by simpa [hostMove, eq_comm] using h⟩))
    | reset p =>
      by_cases hp : p.length ≤ 3584
      · exact .inr (.inr (.inr ⟨p, rest, hs, hp, by simpa [hostMove, reboot, Config.progMax, hp, eq_comm] using h⟩))
      · simp [hostMove, reboot, Config.progMax, hp] at h

/-! ## Keys -/

/-- The lowest pressed key. -/
theorem State.lowestKey_some {s : State} {k : Reg} (hk : s.K[k] = true)
    (hj : ∀ j : Reg, j < k → s.K[j] = false) : s.lowestKey = some k := by
  unfold State.lowestKey
  rw [List.find?_eq_some_iff_getElem]
  refine ⟨hk, k.val, by simp, by simp, fun j hjk => ?_⟩
  simpa [State.keyDown] using hj ⟨j, by omega⟩ hjk

theorem State.lowestKey_none_iff (s : State) : s.lowestKey = none ↔ ∀ k : Reg, s.K[k] = false := by
  simp [State.lowestKey, State.keyDown, List.find?_eq_none]

theorem Keys.none_iff (keys : Keys) : keys = Keys.none ↔ ∀ k : Reg, keys[k] = false := by
  constructor
  · rintro rfl k; simp [Keys.none]
  · intro h
    apply Vector.ext
    intro i hi
    simpa [Keys.none] using h ⟨i, hi⟩

@[simp] theorem keyByte_toNat (k : Reg) : (keyByte k).toNat = k.val := by
  simp [keyByte]; omega

theorem keyNumber_val (a : Byte) : (keyNumber a).val = a.toNat % 16 := by simp [keyNumber]

/-! ## Pixels -/

/-- Toggling a pixel changes that pixel and no other. -/
theorem pixel_togglePixel (fb : Framebuffer) (p q : Pixel) :
    pixel (togglePixel fb p) q = if q = p then !pixel fb q else pixel fb q := by
  unfold pixel togglePixel
  rw [Vector.getElem_set]
  split
  · next h =>
    have hq : q.val % 64 < 64 := Nat.mod_lt _ (by decide)
    rw [BitVec.getLsbD_xor]
    by_cases hqp : q = p
    · subst hqp; simp [hq]
    · have hne : q.val % 64 ≠ p.val % 64 := fun he => hqp (Fin.ext (by omega))
      have hbit : (1#64 <<< (p.val % 64)).getLsbD (q.val % 64) = false := by
        rw [BitVec.getLsbD_shiftLeft, BitVec.getLsbD_one]
        simp only [Bool.and_eq_false_imp, Bool.and_eq_true, decide_eq_true_eq, decide_eq_false_iff_not]
        simp
        omega
      simp only [if_neg hqp, h, hbit, Bool.xor_false]
  · next h =>
    rw [if_neg]
    rintro rfl
    exact h rfl

/-- Two framebuffers with the same pixels are equal. -/
theorem framebuffer_ext {fb fb' : Framebuffer} (h : ∀ p : Pixel, pixel fb p = pixel fb' p) : fb = fb' := by
  apply Vector.ext
  intro r hr
  apply BitVec.eq_of_getLsbD_eq
  intro c hc
  have := h ⟨c + r * 64, by omega⟩
  simpa [pixel, show (c + r * 64) / 64 = r by omega, show (c + r * 64) % 64 = c by omega] using this

/-- With no pixel listed twice, a draw inverts exactly the listed pixels. -/
theorem drawPixels_pixel {ps : List Pixel} (hps : ps.Nodup) (fb : Framebuffer) (hit : Bool) (q : Pixel) :
    pixel (drawPixels ps fb hit).1 q = if q ∈ ps then !pixel fb q else pixel fb q := by
  induction ps generalizing fb hit with
  | nil => simp [drawPixels]
  | cons p ps ih =>
    rw [List.nodup_cons] at hps
    simp only [drawPixels]
    rw [ih hps.2, pixel_togglePixel]
    by_cases hqp : q = p
    · subst hqp; simp [hps.1]
    · simp [hqp]

/-- With no pixel listed twice, a draw hits exactly when a listed pixel was set before it. -/
theorem drawPixels_hit {ps : List Pixel} (hps : ps.Nodup) (fb : Framebuffer) (hit : Bool) :
    (drawPixels ps fb hit).2 = (hit || ps.any fun p => pixel fb p) := by
  induction ps generalizing fb hit with
  | nil => simp [drawPixels]
  | cons p ps ih =>
    rw [List.nodup_cons] at hps
    simp only [drawPixels]
    rw [ih hps.2, List.any_cons, ← Bool.or_assoc]
    congr 1
    rw [Bool.eq_iff_iff, List.any_eq_true, List.any_eq_true]
    refine exists_congr fun q => and_congr_right fun hq => ?_
    rw [pixel_togglePixel, if_neg]
    rintro rfl
    exact hps.1 hq

end Sys2Proof.Machine
end

