-- ==== Sys2Proof/Laws/Display.lean ====
section
/-! SUPPORT. Which pixels a sprite covers (44_display R131), and that it covers none of them twice, so that
`drawPixels_pixel` and `drawPixels_hit` apply to every draw. -/

namespace Sys2Proof.Machine

/-- The pixels of a sprite are those under the 1 bits of its rows. -/
theorem mem_spritePixels (x0 y0 : Byte) (r : Nat) (bs : List Byte) (p : Pixel) :
    p ∈ spritePixels x0 y0 r bs ↔ ∃ k c, ∃ h : k < bs.length,
      c < 8 ∧ spriteBit bs[k] c = true ∧ spritePixel x0 y0 (r + k) c = p := by
  induction bs generalizing r with
  | nil => simp [spritePixels]
  | cons b bs ih =>
    simp only [spritePixels, List.mem_append, ih]
    constructor
    · rintro (h | ⟨k, c, hk, hc, h1, h2⟩)
      · simp only [rowPixels, List.mem_map, List.mem_filter, List.mem_range] at h
        obtain ⟨c, ⟨h1, h2⟩, h3⟩ := h
        exact ⟨0, c, by simp, h1, by simpa using h2, by simpa using h3⟩
      · exact ⟨k + 1, c, by simpa using hk, hc, by simpa using h1, by rw [← h2]; congr 1; omega⟩
    · rintro ⟨k, c, hk, hc, h1, h2⟩
      cases k with
      | zero =>
        left
        simp only [rowPixels, List.mem_map, List.mem_filter, List.mem_range]
        exact ⟨c, ⟨hc, by simpa using h1⟩, by simpa using h2⟩
      | succ k =>
        exact .inr ⟨k, c, by simpa using hk, hc, by simpa using h1, by rw [← h2]; congr 1; omega⟩

/-- The pixels a draw visits are those that lie under the sprite in memory. -/
theorem mem_spritePixels_readBytes (m : Memory) (a n : Nat) (x0 y0 : Byte) (p : Pixel) :
    p ∈ spritePixels x0 y0 0 (m.readBytes a n) ↔ underSprite m a n x0 y0 p := by
  rw [mem_spritePixels]
  simp only [underSprite, Memory.readBytes_length, Memory.getElem_readBytes]
  constructor
  · rintro ⟨k, c, hk, hc, h1, h2⟩
    exact ⟨k, c, hk, hc, h1, by rw [← h2]; simp [spritePixel]⟩
  · rintro ⟨k, c, hk, hc, h1, h2⟩
    exact ⟨k, c, hk, hc, h1, Fin.ext (by rw [h2]; simp [spritePixel])⟩

/-- Within 32 rows and 64 columns, one pixel has one row and one column. -/
theorem spritePixel_inj {x0 y0 : Byte} {r r' c c' : Nat}
    (h : spritePixel x0 y0 r c = spritePixel x0 y0 r' c')
    (hr : r < 32) (hr' : r' < 32) (hc : c < 64) (hc' : c' < 64) : r = r' ∧ c = c' := by
  simp only [spritePixel, Fin.mk.injEq] at h
  omega

/-- A sprite of at most 16 rows covers no pixel twice. -/
theorem spritePixels_nodup (x0 y0 : Byte) (r : Nat) (bs : List Byte) (h : r + bs.length ≤ 16) :
    (spritePixels x0 y0 r bs).Nodup := by
  induction bs generalizing r with
  | nil => simp [spritePixels]
  | cons b bs ih =>
    simp only [List.length_cons] at h
    simp only [spritePixels]
    rw [List.nodup_append]
    refine ⟨?_, ih _ (by omega), ?_⟩
    · refine List.Nodup.map_on ?_ (List.nodup_range.filter _)
      intro a ha b hb hab
      simp only [List.mem_filter, List.mem_range] at ha hb
      exact (spritePixel_inj hab (by omega) (by omega) (by omega) (by omega)).2
    · rintro p hp q hq rfl
      rw [mem_spritePixels] at hq
      obtain ⟨k, c, hk, hc, -, h2⟩ := hq
      simp only [rowPixels, List.mem_map, List.mem_filter, List.mem_range] at hp
      obtain ⟨c', ⟨hc', -⟩, h3⟩ := hp
      have := (spritePixel_inj (h3.trans h2.symm) (by omega) (by omega) (by omega) (by omega)).1
      omega

end Sys2Proof.Machine
end

