-- ==== Sys2Proof/Laws/Exec.lean ====
section
/-! SUPPORT. What `exec` answers for each instruction, as one equation, or one case distinction where the
instruction can fault or suspend. Later proofs rewrite with these and unfold no meaning. -/

namespace Sys2Proof.Machine

/-! ## Instructions that always complete -/

theorem exec_cls (s : State) : exec .cls s = .next
    ({ s with FB := Vector.replicate 32 0 } : State).advance := rfl

theorem exec_jp (nnn : Imm12) (s : State) : exec (.jp nnn) s = .next
    (s.goto (addressOf nnn)) := rfl

theorem exec_jpV0 (nnn : Imm12) (s : State) : exec (.jpV0 nnn) s = .next
    (s.goto (BitVec.ofNat 16 (nnn.toNat + s.V[(0 : Reg)].toNat))) := rfl

theorem exec_seImm (x : Reg) (kk : Byte) (s : State) : exec (.seImm x kk) s = .next
    (s.skipIf (s.V[x] == kk)) := rfl

theorem exec_sneImm (x : Reg) (kk : Byte) (s : State) : exec (.sneImm x kk) s = .next
    (s.skipIf (s.V[x] != kk)) := rfl

theorem exec_seReg (x y : Reg) (s : State) : exec (.seReg x y) s = .next
    (s.skipIf (s.V[x] == s.V[y])) := rfl

theorem exec_sneReg (x y : Reg) (s : State) : exec (.sneReg x y) s = .next
    (s.skipIf (s.V[x] != s.V[y])) := rfl

theorem exec_skp (x : Reg) (s : State) : exec (.skp x) s = .next
    (s.skipIf s.K[keyNumber s.V[x]]) := rfl

theorem exec_sknp (x : Reg) (s : State) : exec (.sknp x) s = .next
    (s.skipIf (!s.K[keyNumber s.V[x]])) := rfl

theorem exec_ldImm (x : Reg) (kk : Byte) (s : State) : exec (.ldImm x kk) s = .next
    (s.setV x kk).advance := rfl

theorem exec_addImm (x : Reg) (kk : Byte) (s : State) : exec (.addImm x kk) s = .next
    (s.setV x (s.V[x] + kk)).advance := rfl

theorem exec_ldReg (x y : Reg) (s : State) : exec (.ldReg x y) s = .next
    (s.setV x s.V[y]).advance := rfl

theorem exec_or (x y : Reg) (s : State) : exec (.or x y) s = .next
    (s.setV x (s.V[x] ||| s.V[y])).advance := rfl

theorem exec_and (x y : Reg) (s : State) : exec (.and x y) s = .next
    (s.setV x (s.V[x] &&& s.V[y])).advance := rfl

theorem exec_xor (x y : Reg) (s : State) : exec (.xor x y) s = .next
    (s.setV x (s.V[x] ^^^ s.V[y])).advance := rfl

theorem exec_addReg (x y : Reg) (s : State) : exec (.addReg x y) s = .next
    ((s.setV x (s.V[x] + s.V[y])).setV VF (flagByte (carryOut s.V[x] s.V[y]))).advance := rfl

theorem exec_sub (x y : Reg) (s : State) : exec (.sub x y) s = .next
    ((s.setV x (s.V[x] - s.V[y])).setV VF (flagByte (noBorrow s.V[x] s.V[y]))).advance := rfl

theorem exec_subn (x y : Reg) (s : State) : exec (.subn x y) s = .next
    ((s.setV x (s.V[y] - s.V[x])).setV VF (flagByte (noBorrow s.V[y] s.V[x]))).advance := rfl

theorem exec_shr (x y : Reg) (s : State) : exec (.shr x y) s = .next
    ((s.setV x (s.V[x] >>> 1)).setV VF (flagByte (shiftedOutRight s.V[x]))).advance := rfl

theorem exec_shl (x y : Reg) (s : State) : exec (.shl x y) s = .next
    ((s.setV x (s.V[x] <<< 1)).setV VF (flagByte (shiftedOutLeft s.V[x]))).advance := rfl

theorem exec_rnd (x : Reg) (kk : Byte) (s : State) : exec (.rnd x kk) s = .next
    (s.drawRandom.setV x (s.randomByte &&& kk)).advance := rfl

theorem exec_ldI (nnn : Imm12) (s : State) : exec (.ldI nnn) s = .next
    ({ s with I := addressOf nnn } : State).advance := rfl

theorem exec_addI (x : Reg) (s : State) : exec (.addI x) s = .next
    (({ s with I := s.I + s.V[x].setWidth 16 } : State).setV VF
      (flagByte (indexOverflow s.I s.V[x]))).advance := rfl

theorem exec_ldF (x : Reg) (s : State) : exec (.ldF x) s = .next
    ({ s with I := BitVec.ofNat 16 (s.V[x].toNat * 5) } : State).advance := rfl

theorem exec_ldVxDt (x : Reg) (s : State) : exec (.ldVxDt x) s = .next
    (s.setV x s.DT).advance := rfl

theorem exec_ldDtVx (x : Reg) (s : State) : exec (.ldDtVx x) s = .next
    ({ s with DT := s.V[x] } : State).advance := rfl

theorem exec_ldStVx (x : Reg) (s : State) : exec (.ldStVx x) s = .next
    ({ s with ST := s.V[x] } : State).advance := rfl

theorem exec_unk (op : Word) (s : State) : exec (.unk op) s = .next
    (s.advanceUnknown op) := rfl

/-! ## Instructions that fault or suspend in some states -/

/-- Return, with an entry in use and without. -/
theorem exec_ret_cases (s : State) :
    (s.sp.val = 0 ∧ exec .ret s = .fault (.stackUnderflow s.pc 0x00EE s.sp)) ∨
    ∃ h : 0 < s.sp.val, exec .ret s = .next (({ s with sp := ⟨s.sp.val - 1, by omega⟩ } : State).goto
      (s.S[s.sp.val - 1]'(by omega) + 2)) := by
  rcases h : s.pop with _ | ⟨a, t⟩
  · exact .inl ⟨s.pop_none_iff.1 h, by simp [exec, execRet, h, raiseUnderflow, encode]⟩
  · obtain ⟨h1, h2, h3⟩ := (s.pop_some_iff _).1 h
    dsimp only at h2 h3
    exact .inr ⟨h1, by simp only [exec, execRet, h, h2, h3]⟩

/-- Call, with a free slot and without. -/
theorem exec_call_cases (nnn : Imm12) (s : State) :
    (s.sp.val = 16 ∧ exec (.call nnn) s = .fault (.stackOverflow s.pc (encode (.call nnn)) s.sp)) ∨
    ∃ h : s.sp.val < 16, exec (.call nnn) s = .next (({ s with
      S := s.S.set s.sp.val s.pc, sp := ⟨s.sp.val + 1, by omega⟩ } : State).goto (addressOf nnn)) := by
  rcases h : s.push s.pc with _ | t
  · exact .inl ⟨(s.push_none_iff _).1 h, by simp [exec, execCall, h, raiseOverflow]⟩
  · obtain ⟨h1, h2⟩ := (s.push_some_iff _ _).1 h
    exact .inr ⟨h1, by simp only [exec, execCall, h, h2]⟩

/-- Wait for key, with no key pressed and with one. -/
theorem exec_ldVxK_cases (x : Reg) (s : State) :
    ((∀ k : Reg, s.K[k] = false) ∧ exec (.ldVxK x) s = .next s.suspend) ∨
    ∃ k : Reg, s.K[k] = true ∧ s.lowestKey = some k ∧
      exec (.ldVxK x) s = .next (s.setV x (keyByte k)).advance := by
  rcases h : s.lowestKey with _ | k
  · exact .inl ⟨s.lowestKey_none_iff.1 h, by simp [exec, execLdVxK, h]⟩
  · refine .inr ⟨k, ?_, rfl, by simp [exec, execLdVxK, h, finishReg]⟩
    simpa [State.keyDown] using List.find?_some h

/-- A checked data access of `n` bytes from I, inside memory and beyond it. -/
theorem withData_cases (s : State) (i : Instr) (n : Nat) (u : State) :
    ((n = 0 ∨ s.I.toNat + n ≤ 0x1000) ∧ withData s i n (.next u) = .next u) ∨
    ((n ≠ 0 ∧ 0x1000 < s.I.toNat + n) ∧ withData s i n (.next u) =
      .fault (.memoryData s.pc (encode i) (if s.I.toNat < 0x1000 then 0x1000 else s.I.toNat))) := by
  by_cases h : n = 0 ∨ s.I.toNat + n ≤ 0x1000
  · exact .inl ⟨h, withData_ok _ _ _ _ h⟩
  · exact .inr ⟨by omega, withData_outside _ _ _ _ (by omega)⟩

theorem exec_ldB (x : Reg) (s : State) : exec (.ldB x) s =
    withData s (.ldB x) 3 (.next (s.storeAtI (bcdDigits s.V[x])).advance) := rfl

theorem exec_stRegs (x : Reg) (s : State) : exec (.stRegs x) s =
    withData s (.stRegs x) (x.val + 1)
      (.next ((s.storeAtI (s.firstRegs x)).advanceI (x.val + 1)).advance) := rfl

theorem exec_ldRegs (x : Reg) (s : State) : exec (.ldRegs x) s =
    withData s (.ldRegs x) (x.val + 1)
      (.next (({ s with V := s.loadedRegs x s.I.toNat } : State).advanceI (x.val + 1)).advance) := rfl

theorem exec_drw (x y : Reg) (n : Nibble) (s : State) : exec (.drw x y n) s =
    withData s (.drw x y n) n.toNat
      (.next (({ s with FB := (s.drawn x y n).1 } : State).setV VF (flagByte (s.drawn x y n).2)).advance) :=
  rfl

end Sys2Proof.Machine
end

