-- ==== Sys2Proof/Laws/PerInstr.lean ====
section
/-! SUPPORT. A law of the syntax, one lemma per constructor: the word an instruction encodes to is
accepted by the instruction's own row of the opcode map (30_encoding R65), and an unrecognized
instruction's word by none (R66, R68). -/

namespace Sys2Proof.Laws.EncodesInRow

/-- The number of an instruction's row in `opcodeTable`, from 0; `none` for the unrecognized words. -/
def rowNumber : Instr → Option Nat
  | .cls => some 0
  | .ret => some 1
  | .jp _ => some 2
  | .call _ => some 3
  | .seImm _ _ => some 4
  | .sneImm _ _ => some 5
  | .seReg _ _ => some 6
  | .ldImm _ _ => some 7
  | .addImm _ _ => some 8
  | .ldReg _ _ => some 9
  | .or _ _ => some 10
  | .and _ _ => some 11
  | .xor _ _ => some 12
  | .addReg _ _ => some 13
  | .sub _ _ => some 14
  | .shr _ _ => some 15
  | .subn _ _ => some 16
  | .shl _ _ => some 17
  | .sneReg _ _ => some 18
  | .ldI _ => some 19
  | .jpV0 _ => some 20
  | .rnd _ _ => some 21
  | .drw _ _ _ => some 22
  | .skp _ => some 23
  | .sknp _ => some 24
  | .ldVxDt _ => some 25
  | .ldVxK _ => some 26
  | .ldDtVx _ => some 27
  | .ldStVx _ => some 28
  | .addI _ => some 29
  | .ldF _ => some 30
  | .ldB _ => some 31
  | .stRegs _ => some 32
  | .ldRegs _ => some 33
  | .unk _ => none

/-- The encoding of a well-formed instruction lies in its own row. -/
def Statement (i : Instr) : Prop :=
  i.wellFormed = true →
    match rowNumber i with
    | some k => ∃ r, opcodeTable[k]? = some r ∧ r.accepts (encode i) = true
    | none => recognized (encode i) = false

/-! ## Words under the masks of the formats (30_encoding R62, R65) -/

theorem wordNNN_masked (g : Nibble) (nnn : Imm12) : wordNNN g nnn &&& 0xF000#16 = wordNNN g 0 := by
  have hm : (0xF000#16 : Word) = (0xF#4 ++ 0x000#12 : BitVec (4 + 12)) := by decide
  have hg : g &&& 0xF#4 = g := BitVec.and_allOnes
  have h : (g ++ nnn : BitVec (4 + 12)) &&& (0xF#4 ++ 0x000#12) = g ++ (0 : Imm12) := by
    rw [BitVec.and_append, hg, BitVec.and_zero]
    rfl
  rw [hm]
  exact h

theorem wordXKK_eq_wordNNN (g : Nibble) (x : Reg) (kk : Byte) :
    wordXKK g x kk = wordNNN g (regField x ++ kk : BitVec 12) := rfl

theorem wordXYN_eq_wordNNN (g : Nibble) (x y : Reg) (n : Nibble) :
    wordXYN g x y n = wordNNN g (regField x ++ (regField y ++ n : BitVec 8) : BitVec 12) := rfl

theorem accepts_of_masked {r : OpcodeRow} {w : Word} (h : w &&& r.mask = r.pattern) : r.accepts w = true := by
  simp [OpcodeRow.accepts, h]

/-! ## The instructions -/

theorem cls : Statement .cls := fun _ =>
  ⟨_, rfl, by decide⟩

theorem ret : Statement .ret := fun _ =>
  ⟨_, rfl, by decide⟩

theorem jp (nnn : Imm12) : Statement (.jp nnn) := fun _ =>
  ⟨_, rfl, accepts_of_masked (wordNNN_masked _ _)⟩

theorem call (nnn : Imm12) : Statement (.call nnn) := fun _ =>
  ⟨_, rfl, accepts_of_masked (wordNNN_masked _ _)⟩

theorem seImm (x : Reg) (kk : Byte) : Statement (.seImm x kk) := fun _ =>
  ⟨_, rfl, accepts_of_masked (wordNNN_masked _ _)⟩

theorem sneImm (x : Reg) (kk : Byte) : Statement (.sneImm x kk) := fun _ =>
  ⟨_, rfl, accepts_of_masked (wordNNN_masked _ _)⟩

theorem seReg (x y : Reg) : Statement (.seReg x y) := fun _ =>
  ⟨_, rfl, by revert x y; decide⟩

theorem ldImm (x : Reg) (kk : Byte) : Statement (.ldImm x kk) := fun _ =>
  ⟨_, rfl, accepts_of_masked (wordNNN_masked _ _)⟩

theorem addImm (x : Reg) (kk : Byte) : Statement (.addImm x kk) := fun _ =>
  ⟨_, rfl, accepts_of_masked (wordNNN_masked _ _)⟩

theorem ldReg (x y : Reg) : Statement (.ldReg x y) := fun _ =>
  ⟨_, rfl, by revert x y; decide⟩

theorem or (x y : Reg) : Statement (.or x y) := fun _ =>
  ⟨_, rfl, by revert x y; decide⟩

theorem and (x y : Reg) : Statement (.and x y) := fun _ =>
  ⟨_, rfl, by revert x y; decide⟩

theorem xor (x y : Reg) : Statement (.xor x y) := fun _ =>
  ⟨_, rfl, by revert x y; decide⟩

theorem addReg (x y : Reg) : Statement (.addReg x y) := fun _ =>
  ⟨_, rfl, by revert x y; decide⟩

theorem sub (x y : Reg) : Statement (.sub x y) := fun _ =>
  ⟨_, rfl, by revert x y; decide⟩

theorem shr (x y : Reg) : Statement (.shr x y) := fun _ =>
  ⟨_, rfl, by revert x y; decide⟩

theorem subn (x y : Reg) : Statement (.subn x y) := fun _ =>
  ⟨_, rfl, by revert x y; decide⟩

theorem shl (x y : Reg) : Statement (.shl x y) := fun _ =>
  ⟨_, rfl, by revert x y; decide⟩

theorem sneReg (x y : Reg) : Statement (.sneReg x y) := fun _ =>
  ⟨_, rfl, by revert x y; decide⟩

theorem ldI (nnn : Imm12) : Statement (.ldI nnn) := fun _ =>
  ⟨_, rfl, accepts_of_masked (wordNNN_masked _ _)⟩

theorem jpV0 (nnn : Imm12) : Statement (.jpV0 nnn) := fun _ =>
  ⟨_, rfl, accepts_of_masked (wordNNN_masked _ _)⟩

theorem rnd (x : Reg) (kk : Byte) : Statement (.rnd x kk) := fun _ =>
  ⟨_, rfl, accepts_of_masked (wordNNN_masked _ _)⟩

theorem drw (x y : Reg) (n : Nibble) : Statement (.drw x y n) := fun _ =>
  ⟨_, rfl, accepts_of_masked (wordNNN_masked _ _)⟩

theorem skp (x : Reg) : Statement (.skp x) := fun _ =>
  ⟨_, rfl, by revert x; decide⟩

theorem sknp (x : Reg) : Statement (.sknp x) := fun _ =>
  ⟨_, rfl, by revert x; decide⟩

theorem ldVxDt (x : Reg) : Statement (.ldVxDt x) := fun _ =>
  ⟨_, rfl, by revert x; decide⟩

theorem ldVxK (x : Reg) : Statement (.ldVxK x) := fun _ =>
  ⟨_, rfl, by revert x; decide⟩

theorem ldDtVx (x : Reg) : Statement (.ldDtVx x) := fun _ =>
  ⟨_, rfl, by revert x; decide⟩

theorem ldStVx (x : Reg) : Statement (.ldStVx x) := fun _ =>
  ⟨_, rfl, by revert x; decide⟩

theorem addI (x : Reg) : Statement (.addI x) := fun _ =>
  ⟨_, rfl, by revert x; decide⟩

theorem ldF (x : Reg) : Statement (.ldF x) := fun _ =>
  ⟨_, rfl, by revert x; decide⟩

theorem ldB (x : Reg) : Statement (.ldB x) := fun _ =>
  ⟨_, rfl, by revert x; decide⟩

theorem stRegs (x : Reg) : Statement (.stRegs x) := fun _ =>
  ⟨_, rfl, by revert x; decide⟩

theorem ldRegs (x : Reg) : Statement (.ldRegs x) := fun _ =>
  ⟨_, rfl, by revert x; decide⟩

theorem unk (op : Word) : Statement (.unk op) := by
  simp [Statement, Instr.wellFormed, rowNumber, encode]

end Sys2Proof.Laws.EncodesInRow
end

