-- ==== Sys2Proof/Tests/Slice0.lean ====
section
/-! SUPPORT. The model's own tests: the well-formedness check refuses what it should, every constructor's
decoding from a word written out from the map of 30_encoding R65, one step per test with the result
the vectors of 95_test_vectors give, and, for each statement with hypotheses, a concrete state and
operands that meet them. -/

namespace Sys2Proof.Tests

open Sys2Proof.Machine

/-! ## Well-formedness -/

theorem test_wf_refuses_a_recognized_word_as_unrecognized :
    (Instr.unk 0x00E0).wellFormed = false ∧ (Instr.unk 0x6005).wellFormed = false ∧
    (Instr.unk 0x8AB6).wellFormed = false ∧ (Instr.unk 0xFF65).wellFormed = false := by decide

theorem test_wf_accepts :
    (Instr.unk 0x5121).wellFormed = true ∧ (Instr.unk 0x0000).wellFormed = true ∧
    (Instr.drw 15 0 15).wellFormed = true ∧ (Instr.jp 0xFFF).wellFormed = true := by decide

/-! ## Decoding, from the match patterns of R65 with the fields filled in -/

theorem test_decode_control_transfer :
    decodeWord 0x00EE = .ret ∧ decodeWord 0x1ABC = .jp 0xABC ∧ decodeWord 0x220C = .call 0x20C ∧
    decodeWord 0xBFFF = .jpV0 0xFFF := by decide

theorem test_decode_skips :
    decodeWord 0x332A = .seImm 3 0x2A ∧ decodeWord 0x43FF = .sneImm 3 0xFF ∧
    decodeWord 0x5120 = .seReg 1 2 ∧ decodeWord 0x9F00 = .sneReg 15 0 := by decide

theorem test_decode_loads_and_logic :
    decodeWord 0x6FAB = .ldImm 15 0xAB ∧ decodeWord 0x7103 = .addImm 1 0x03 ∧
    decodeWord 0x8120 = .ldReg 1 2 ∧ decodeWord 0x8121 = .or 1 2 ∧ decodeWord 0x8122 = .and 1 2 ∧
    decodeWord 0x8123 = .xor 1 2 := by decide

theorem test_decode_arithmetic :
    decodeWord 0x8124 = .addReg 1 2 ∧ decodeWord 0x8125 = .sub 1 2 ∧ decodeWord 0x8126 = .shr 1 2 ∧
    decodeWord 0x8127 = .subn 1 2 ∧ decodeWord 0x812E = .shl 1 2 ∧ decodeWord 0xC30F = .rnd 3 0x0F := by
  decide

theorem test_decode_address_register_and_memory :
    decodeWord 0xA300 = .ldI 0x300 ∧ decodeWord 0xF21E = .addI 2 ∧ decodeWord 0xF129 = .ldF 1 ∧
    decodeWord 0xF033 = .ldB 0 ∧ decodeWord 0xF255 = .stRegs 2 ∧ decodeWord 0xFF65 = .ldRegs 15 := by
  decide

theorem test_decode_display : decodeWord 0x00E0 = .cls ∧ decodeWord 0xD345 = .drw 3 4 5 := by decide

theorem test_decode_keypad_and_timers :
    decodeWord 0xE29E = .skp 2 ∧ decodeWord 0xE2A1 = .sknp 2 ∧ decodeWord 0xF30A = .ldVxK 3 ∧
    decodeWord 0xF507 = .ldVxDt 5 ∧ decodeWord 0xF015 = .ldDtVx 0 ∧ decodeWord 0xF118 = .ldStVx 1 := by
  decide

/-- The words of 95_test_vectors 2.1 that match no row. -/
theorem test_decode_unrecognized :
    ∀ w ∈ [0x0000, 0x00E1, 0x01E0, 0x5121, 0x8128, 0x812F, 0x9121, 0xE09F, 0xF075, 0xF1FF],
      decodeTableWord 16 w = some (.unk (BitVec.ofNat 16 w)) := by decide

theorem test_decode_bytes :
    decode [0x12, 0x34, 0x56] = .ok (.jp 0x234, [0x56]) ∧ decode [0x12] = .error .truncated := ⟨rfl, rfl⟩

/-! ## One step -/

/-- The next state of an outcome. -/
def nextOf : Result → Option State
  | .next t => some t
  | .fault _ => none
  | .refused _ => none

/-- The fault of an outcome. -/
def faultOf : Result → Option Fault
  | .next _ => none
  | .fault f => some f
  | .refused _ => none

/-- The reset state with some registers set, first V0. -/
def withV (vs : List Byte) : State := { State.reset with V := Vector.ofFn fun r => vs.getD r.val 0 }

/-- The reset state with I, VF and the bytes from I set. -/
def withI (i : Word) (vf : Byte) (bytes : List Byte) : State :=
  { (withV []).setV VF vf with I := i, M := Memory.writeBytes [] i.toNat bytes }

/-- The reset state with `n` stack entries 0x204, 0x206, … in use. -/
def withStack (n : Fin 17) : State :=
  { State.reset with sp := n, S := Vector.ofFn fun j => BitVec.ofNat 16 (0x204 + 2 * j.val) }

/-- The keypad with the listed keys pressed. -/
def keysOf (ks : List Nat) : Keys := Vector.ofFn fun k => ks.contains k.val

/-- The outcome of a Step on the instruction word `w` placed at pc. -/
def stepOn (w : Nat) (s : State) : Result := step (s.withFetchWord 16 w)

/-- A Step with keys and a random byte on the instruction word `w` placed at pc. -/
def stepWith (ks : List Nat) (r : Byte) (w : Nat) (s : State) : Result :=
  hostMove (.step (keysOf ks) (some r)) (s.withFetchWord 16 w)

/-- What a test looks at: some fields of the next state. -/
def see {α : Type} (f : State → α) (o : Result) : Option α := (nextOf o).map f

-- Control transfer (95_test_vectors 2.2)

theorem test_jp : see (·.pc) (stepOn 0x1ABC .reset) = some 0xABC := by decide

theorem test_jpV0 : see (·.pc) (stepOn 0xBFFF (withV [0xFF])) = some 0x10FE := by decide

theorem test_call_pushes_its_own_address :
    see (fun t => (t.S[15], t.sp, t.pc)) (stepOn 0x2300 (withStack 15)) = some (0x200, 16, 0x300) := by decide

theorem test_call_overflow :
    faultOf (stepOn 0x2300 (withStack 16)) = some (.stackOverflow 0x200 0x2300 16) := by decide

theorem test_ret_pops_the_newest :
    see (fun t => (t.sp, t.pc)) (stepOn 0x00EE (withStack 2)) = some (1, 0x208) := by decide

theorem test_ret_underflow :
    faultOf (stepOn 0x00EE .reset) = some (.stackUnderflow 0x200 0x00EE 0) := by decide

-- Skips (2.3)

theorem test_seImm : see (·.pc) (stepOn 0x332A (withV [0, 0, 0, 0x2A])) = some 0x204 ∧
    see (·.pc) (stepOn 0x332B (withV [0, 0, 0, 0x2A])) = some 0x202 := by decide

theorem test_sneImm : see (·.pc) (stepOn 0x432A (withV [0, 0, 0, 0x2A])) = some 0x202 ∧
    see (·.pc) (stepOn 0x4300 (withV [0, 0, 0, 0x2A])) = some 0x204 := by decide

theorem test_seReg : see (·.pc) (stepOn 0x5120 (withV [0, 7, 7])) = some 0x204 ∧
    see (·.pc) (stepOn 0x5120 (withV [0, 7, 8])) = some 0x202 := by decide

theorem test_sneReg : see (·.pc) (stepOn 0x9120 (withV [0, 7, 8])) = some 0x204 ∧
    see (·.pc) (stepOn 0x9120 (withV [0, 7, 7])) = some 0x202 := by decide

-- Load, arithmetic, logic, shifts, random (2.4)

/-- V1, V2 and VF after a step. -/
def see12F (o : Result) : Option (Byte × Byte × Byte) := see (fun t => (t.V[1], t.V[2], t.V[15])) o

theorem test_ldImm : see (·.V[15]) (stepOn 0x6FAB .reset) = some 0xAB := by decide

theorem test_addImm_has_no_flag : see12F (stepOn 0x7103 (withV [0, 0xFE])) = some (0x01, 0, 0) := by decide

theorem test_ldReg : see12F (stepOn 0x8120 (withV [0, 0, 0x33])) = some (0x33, 0x33, 0) := by decide

theorem test_or : see12F (stepOn 0x8121 ((withV [0, 0xF0, 0x0F]).setV VF 1)) = some (0xFF, 0x0F, 1) := by decide

theorem test_and : see12F (stepOn 0x8122 ((withV [0, 0xF3, 0x3F]).setV VF 1)) = some (0x33, 0x3F, 1) := by decide

theorem test_xor : see12F (stepOn 0x8123 ((withV [0, 0xFF, 0x0F]).setV VF 1)) = some (0xF0, 0x0F, 1) := by decide

theorem test_addReg : see12F (stepOn 0x8124 (withV [0, 0x80, 0x80])) = some (0x00, 0x80, 1) ∧
    see12F (stepOn 0x8124 (withV [0, 0x80, 0x7F])) = some (0xFF, 0x7F, 0) := by decide

theorem test_addReg_flag_wins : see (·.V[15]) (stepOn 0x8F14 ((withV [0, 4]).setV VF 3)) = some 0 ∧
    see12F (stepOn 0x81F4 ((withV [0, 0x10]).setV VF 1)) = some (0x11, 0, 0) := by decide

theorem test_sub : see12F (stepOn 0x8125 (withV [0, 0x10, 0x10])) = some (0x00, 0x10, 1) ∧
    see12F (stepOn 0x8125 (withV [0, 0x10, 0x20])) = some (0xF0, 0x20, 0) := by decide

theorem test_sub_flag_wins : see (·.V[15]) (stepOn 0x8F15 ((withV [0, 9]).setV VF 5)) = some 0 := by decide

theorem test_subn : see12F (stepOn 0x8127 (withV [0, 0x10, 0x20])) = some (0x10, 0x20, 1) ∧
    see12F (stepOn 0x8127 (withV [0, 0x20, 0x10])) = some (0xF0, 0x10, 0) := by decide

theorem test_shr : see12F (stepOn 0x8126 (withV [0, 0x05, 0xF0])) = some (0x02, 0xF0, 1) ∧
    see (·.V[15]) (stepOn 0x8F06 (withV [] |>.setV VF 2)) = some 0 := by decide

theorem test_shl : see12F (stepOn 0x812E (withV [0, 0x81, 0])) = some (0x02, 0, 1) ∧
    see (·.V[15]) (stepOn 0x8F0E (withV [] |>.setV VF 0x41)) = some 0 := by decide

theorem test_rnd : see (·.V[3]) (stepWith [] 0xA7 0xC30F .reset) = some 0x07 ∧
    see (·.V[3]) (stepWith [] 0xA7 0xC3FF .reset) = some 0xA7 := by decide

-- Address register and memory (2.5)

theorem test_ldI : see (·.I) (stepOn 0xAFFF .reset) = some 0x0FFF := by decide

theorem test_addI : see (fun t => (t.I, t.V[15])) (stepOn 0xF21E { withV [0, 0, 2] with I := 0xFFFF }) = some (1, 1) ∧
    see (fun t => (t.I, t.V[15])) (stepOn 0xFF1E (withI 0x0100 2 [])) = some (0x0102, 0) := by decide

theorem test_ldF : see (·.I) (stepOn 0xF129 (withV [0, 0xFF])) = some 0x4FB ∧
    see (·.I) (stepOn 0xF129 (withV [0, 0x0A])) = some 0x032 := by decide

theorem test_ldB : see (fun t => t.M.readBytes 0xFFD 3) (stepOn 0xF033 ({ withV [0x7B] with I := 0xFFD })) =
    some [1, 2, 3] := by decide

theorem test_ldB_fault : faultOf (stepOn 0xF033 ({ withV [0x7B] with I := 0xFFE })) =
    some (.memoryData 0x200 0xF033 0x1000) := by decide

theorem test_stRegs :
    see (fun t => (t.M.readBytes 0x400 4, t.I)) (stepOn 0xF255 { withV [0x11, 0x22, 0x33, 0x44] with I := 0x400 }) =
      some ([0x11, 0x22, 0x33, 0], 0x403) := by decide

theorem test_stRegs_fault : faultOf (stepOn 0xFF55 { withV [] with I := 0xFF1 }) =
    some (.memoryData 0x200 0xFF55 0x1000) := by decide

theorem test_ldRegs_from_the_font :
    see (fun t => (t.V.toList.take 5, t.I)) (stepOn 0xF465 .reset) =
      some ([0xF0, 0x90, 0x90, 0x90, 0xF0], 0x005) := by decide

theorem test_ldRegs_fault : faultOf (stepOn 0xF065 (withI 0x2000 0 [])) =
    some (.memoryData 0x200 0xF065 0x2000) := by decide

-- Display (2.6)

theorem test_cls : see (fun t => (t.FB, t.V[15]))
    (stepOn 0x00E0 { (withV []).setV VF 1 with FB := Vector.replicate 32 1 }) =
      some (Vector.replicate 32 0, 1) := by decide

/-- F-D4: the glyph 0 at (62, 30) wraps on both axes: columns 62 and 1, or 62, 63, 0 and 1, of rows 30,
31, 0, 1 and 2. -/
theorem test_drw_wraps : see (fun t => (t.FB.toList, t.V[15])) (stepOn 0xD015 (withV [62, 30])) =
    some ([0x4000000000000002, 0x4000000000000002, 0xC000000000000003] ++ List.replicate 27 0 ++
      [0xC000000000000003, 0x4000000000000002], 0) := by decide

/-- F-D7: a pixel that goes from 1 to 0 is a collision. -/
theorem test_drw_collision :
    see (fun t => (t.FB[0], t.V[15]))
      (stepOn 0xD011 { withI 0x300 0 [0xC0] with FB := (Vector.replicate 32 0).set 0 0x22 }) =
        some (0x21, 1) := by decide

-- Keypad and timers (2.7)

theorem test_skp : see (·.pc) (stepWith [0xA] 0 0xE29E (withV [0, 0, 0x1A])) = some 0x204 ∧
    see (·.pc) (stepWith [0] 0 0xE29E (withV [0, 0, 0xFF])) = some 0x202 := by decide

theorem test_sknp : see (·.pc) (stepWith [] 0 0xE2A1 (withV [0, 0, 5])) = some 0x204 ∧
    see (·.pc) (stepWith [5] 0 0xE2A1 (withV [0, 0, 5])) = some 0x202 := by decide

theorem test_ldVxK_suspends :
    see (fun t => (t.V[3], t.pc, t.report)) (stepOn 0xF30A (withV [0, 0, 0, 0x44])) =
      some (0x44, 0x200, .suspended 0x200) := by decide

theorem test_ldVxK_takes_the_lowest_key :
    see (fun t => (t.V[3], t.pc)) (stepWith [7, 9] 0 0xF30A .reset) = some (7, 0x202) := by decide

theorem test_ldVxDt : see (fun t => (t.V[5], t.DT)) (stepOn 0xF507 { State.reset with DT := 3 }) = some (3, 3) := by
  decide

theorem test_ldDtVx : see (·.DT) (stepOn 0xF015 (withV [0xFF])) = some 0xFF := by decide

theorem test_ldStVx : see (fun t => (t.ST, t.report)) (stepOn 0xF118 { State.reset with ST := 1 }) =
    some (0, .ok) := by decide

/-- The Tick vectors. -/
theorem test_tick :
    ([(0, 0), (3, 0), (1, 0), (0, 2), (0, 1), (1, 1), (255, 255)].map fun (d, u) =>
      let t := tick { State.reset with DT := d, ST := u }
      ((t.DT, t.ST), t.report)) =
    [((0, 0), .ticked false), ((2, 0), .ticked false), ((0, 0), .ticked false), ((0, 1), .ticked false),
      ((0, 0), .ticked true), ((0, 0), .ticked true), ((254, 254), .ticked false)] := by decide

-- The codes of the outcome port (60_exceptions R165)

theorem test_outcome_codes :
    (transition (.step Keys.none none) { State.reset with pc := 0xFFF }).report.code = some 2 ∧
    (transition (.step Keys.none none) (State.reset.withFetchWord 16 0x00EE)).report.code = some 3 ∧
    (Fault.stackUnderflow 0x200 0x00EE 0).codes = (3, 1) ∧
    (Report.suspended 0x200).code = some 1 ∧ (Report.unknownOpcode 0x200 0).code = some 0 := by decide

-- Fetch and unrecognized words (2.1)

theorem test_fetch_odd_pc :
    see (fun t => (t.V[0], t.pc)) (stepOn 0x6007 { State.reset with pc := 0x201 }) = some (7, 0x203) := by decide

theorem test_fetch_fault : faultOf (step { State.reset with pc := 0xFFF }) = some (.memoryFetch 0xFFF 0x1000) ∧
    faultOf (step { State.reset with pc := 0x1000 }) = some (.memoryFetch 0x1000 0x1000) := by decide

theorem test_unk : see (fun t => (t.pc, t.report)) (stepOn 0x5121 .reset) =
    some (0x202, .unknownOpcode 0x200 0x5121) := by decide

/-- 2.8: a Reset loads the program at 0x200, and the first word of the empty program is 0x0000. -/
theorem test_reset :
    see (fun t => (t.M.readBytes 0x200 3, t.pc)) (hostMove (.reset [0x12, 0x34]) (withV [1, 2])) =
      some ([0x12, 0x34, 0], 0x200) ∧
    see (·.report) (step .reset) = some (.unknownOpcode 0x200 0x0000) := by decide

/-! ## Witnesses: states and operands that meet the hypotheses of the statements

Named after the statement; where a statement has several clauses, each clause has its witness at a
boundary of its range. -/

theorem witness_DecodingAnEncodedInstructionGivesItBack :
    (Instr.drw 15 0 15).wellFormed = true ∧ (Instr.unk 0x00E1).wellFormed = true ∧
    (Instr.unk 0xFFFF).wellFormed = true := by decide

theorem witness_NoWordMatchesTwoOpcodeRows :
    ∃ r ∈ opcodeTable, ∃ r' ∈ opcodeTable, r.accepts 0x812E = true ∧ r'.accepts 0x812E = true := by
  refine ⟨⟨"SHL", 0x800E, 0xF00F⟩, by decide, ⟨"SHL", 0x800E, 0xF00F⟩, by decide, ?_⟩
  decide

/-- An instruction placed at pc meets the hypotheses with an empty schedule and with a Step scheduled. -/
theorem witness_StepRunsTheDecodedInstruction :
    let s := ({ State.reset with pc := 0xFFE } : State).withFetchWord 16 0x6109
    let u := { s with schedule := [.step (keysOf [3]) (some 0xA7), .tick] }
    (Instr.ldImm 1 9).wellFormed = true ∧ s.pc.toNat < 0xFFF ∧
    decode (s.M.readBytes s.pc.toNat 2) = .ok (.ldImm 1 9, []) ∧ s.schedule = [] ∧
    decode (u.M.readBytes u.pc.toNat 2) = .ok (.ldImm 1 9, []) ∧
    u.schedule = .step (keysOf [3]) (some 0xA7) :: [.tick] := by
  refine ⟨rfl, by decide, rfl, rfl, rfl, rfl⟩

theorem witness_ScheduledTicksAndResetsRunNoInstruction :
    ({ State.reset with schedule := [.tick, .tick] } : State).schedule = .tick :: [.tick] ∧
    ({ State.reset with schedule := [.reset [0x12, 0x00]] } : State).schedule = .reset [0x12, 0x00] :: [] ∧
    [(0x12 : Byte), 0x00].length ≤ 3584 := by decide

/-- Both clauses at the boundary: the last fetch that succeeds and the first that faults. -/
theorem witness_FetchIsBigEndianAndFaultsExactlyPastMemory :
    ({ State.reset with pc := 0xFFE } : State).pc.toNat < 0xFFF ∧
    0xFFF ≤ ({ State.reset with pc := 0xFFF } : State).pc.toNat := by decide

/-- Every site of the list faults, one byte past the last access that does not. -/
theorem witness_MemoryFaultsComeFromTheListedSitesOnly :
    faultOf (cycle { State.reset with pc := 0xFFF }) = some (.memoryFetch 0xFFF 0x1000) ∧
    faultOf (exec (.drw 0 0 2) (withI 0xFFF 1 [])) = some (.memoryData 0x200 0xD002 0x1000) ∧
    faultOf (exec (.drw 0 0 1) (withI 0xFFF 1 [])) = none ∧
    faultOf (exec (.ldB 0) (withI 0xFFE 1 [])) = some (.memoryData 0x200 0xF033 0x1000) ∧
    faultOf (exec (.ldB 0) (withI 0xFFD 1 [])) = none ∧
    faultOf (exec (.stRegs 15) (withI 0xFF1 1 [])) = some (.memoryData 0x200 0xFF55 0x1000) ∧
    faultOf (exec (.stRegs 15) (withI 0xFF0 1 [])) = none ∧
    faultOf (exec (.ldRegs 1) (withI 0xFFF 1 [])) = some (.memoryData 0x200 0xF165 0x1000) ∧
    faultOf (exec (.ldRegs 0) (withI 0xFFF 1 [])) = none := by decide

theorem witness_StackFaultsComeFromCallAndReturnOnly :
    faultOf (exec (.call 0x300) (withStack 16)) = some (.stackOverflow 0x200 0x2300 16) ∧
    faultOf (exec .ret (withStack 0)) = some (.stackUnderflow 0x200 0x00EE 0) := by decide

/-- Each of the four faults, the fetch at both sides of 0x1000. -/
theorem witness_FaultsCarryPcWordAndAddress :
    cycle { State.reset with pc := 0xFFF } = .fault (.memoryFetch 0xFFF 0x1000) ∧
    cycle { State.reset with pc := 0x1002 } = .fault (.memoryFetch 0x1002 0x1002) ∧
    exec (.ldB 0) (withI 0x1000 0 []) = .fault (.memoryData 0x200 0xF033 0x1000) ∧
    exec (.call 0x300) (withStack 16) = .fault (.stackOverflow 0x200 0x2300 16) ∧
    exec .ret (withStack 0) = .fault (.stackUnderflow 0x200 0x00EE 0) := ⟨rfl, rfl, rfl, rfl, rfl⟩

theorem witness_AFaultRepeatsUntilReset :
    hostMove (.step (keysOf [1]) none) { State.reset with pc := 0xFFF } = .fault (.memoryFetch 0xFFF 0x1000) ∧
    ∀ e ∈ [HostEvent.tick, .step (keysOf [2]) (some 7)], e.keepsRunning = true := ⟨rfl, by decide⟩

theorem witness_ProgramCounterFollowsTheTable :
    (∃ t, exec (.jpV0 0xFFF) (withV [0xFF]) = .next t) ∧ (∃ t, exec .ret (withStack 16) = .next t) ∧
    (∃ t, exec (.ldVxK 0) .reset = .next t) ∧
    hostMove (.step Keys.none none) { State.reset with pc := 0xFFF } = .fault (.memoryFetch 0xFFF 0x1000) :=
  ⟨⟨_, rfl⟩, ⟨_, rfl⟩, ⟨_, rfl⟩, rfl⟩

/-- A destination that changes, a flag that changes, and a block load that changes V15. -/
theorem witness_RegistersChangeOnlyAsTabulated :
    (∃ t, exec (.ldImm 3 9) .reset = .next t ∧ t.V[(3 : Reg)] ≠ State.reset.V[(3 : Reg)]) ∧
    (∃ t, exec (.sub 3 3) .reset = .next t ∧ t.V[VF] ≠ State.reset.V[VF]) ∧
    (∃ t, exec (.ldRegs 15) .reset = .next t ∧ t.V[VF] ≠ State.reset.V[VF]) :=
  ⟨⟨_, rfl, by decide⟩, ⟨_, rfl, by decide⟩, ⟨_, rfl, by decide⟩⟩

/-- A register beside the destination, the destination itself, and a fault. -/
theorem witness_RegistersInfluenceOnlyAsTabulated :
    (2 : Reg) ∉ regReads (.addReg 0 1) ∧ (∃ t, exec (.addReg 0 1) .reset = .next t) ∧
    (5 : Reg) ∉ regReads (.ldImm 5 9) ∧ (∃ t, exec (.ldImm 5 9) .reset = .next t) ∧
    (3 : Reg) ∉ regReads (.stRegs 2) ∧
    exec (.stRegs 2) (withI 0x1000 0 []) = .fault (.memoryData 0x200 0xF255 0x1000) :=
  ⟨by decide, ⟨_, rfl⟩, by decide, ⟨_, rfl⟩, by decide, rfl⟩

theorem witness_FlagValuesAreZeroOrOne :
    (∀ i ∈ [Instr.addReg 15 15, .sub 0 1, .shr 15 0, .subn 1 0, .shl 15 0, .addI 15, .drw 15 0 15],
      writesFlag i = true) ∧
    (∃ t, exec (.addReg 15 15) .reset = .next t) ∧ (∃ t, exec (.drw 15 0 15) .reset = .next t) :=
  ⟨by decide, ⟨_, rfl⟩, ⟨_, rfl⟩⟩

/-- One state for each clause in which the field does change. -/
theorem witness_OtherStateIsWrittenOnlyAsTabulated :
    (∃ t, exec (.stRegs 0) (withI 0xFFF 0 [7]) = .next t ∧ t.M ≠ (withI 0xFFF 0 [7]).M) ∧
    (∃ t, exec (.ldI 1) .reset = .next t ∧ t.I ≠ State.reset.I) ∧
    (∃ t, exec (.call 1) (withStack 15) = .next t ∧ t.S ≠ (withStack 15).S ∧ t.sp ≠ (withStack 15).sp) ∧
    (∃ t, exec .ret (withStack 1) = .next t ∧ t.sp ≠ (withStack 1).sp) ∧
    (∃ t, exec (.drw 0 0 1) .reset = .next t ∧ t.FB ≠ State.reset.FB) ∧
    (∃ t, exec (.ldDtVx 0) (withV [1]) = .next t ∧ t.DT ≠ (withV [1]).DT) ∧
    (∃ t, exec (.ldStVx 0) (withV [1]) = .next t ∧ t.ST ≠ (withV [1]).ST) :=
  ⟨⟨_, rfl, by decide⟩, ⟨_, rfl, by decide⟩, ⟨_, rfl, by decide, by decide⟩, ⟨_, rfl, by decide⟩,
    ⟨_, rfl, by decide⟩, ⟨_, rfl, by decide⟩, ⟨_, rfl, by decide⟩⟩

theorem witness_NoInstructionReadsTheSoundTimer :
    (∃ t, exec (.ldVxDt 0) .reset = .next t) ∧
    exec .ret .reset = .fault (.stackUnderflow 0x200 0x00EE 0) := ⟨⟨_, rfl⟩, rfl⟩

theorem witness_InputsAreReadOnlyByTheirInstructions :
    (∀ x, (Instr.ldVxDt 0) ≠ .skp x ∧ (Instr.ldVxDt 0) ≠ .sknp x ∧ (Instr.ldVxDt 0) ≠ .ldVxK x) ∧
    (∃ t, exec (.ldVxDt 0) .reset = .next t) ∧ (∀ x kk, (Instr.skp 0) ≠ .rnd x kk) ∧
    (∃ t, exec (.skp 0) .reset = .next t) := ⟨by decide, ⟨_, rfl⟩, by simp, ⟨_, rfl⟩⟩

/-- A state of the invariant that is not the reset state, at its limits, and its next step. -/
theorem witness_EveryStepKeepsTheInvariant :
    let s := { withStack 16 with M := [(0x201, 0xEE), (0xFFF, 1)] }
    s.Inv ∧ ∃ t, step s = .next t :=
  ⟨⟨by decide, by decide, by decide⟩, _, rfl⟩

theorem witness_ResetGivesEveryPieceOfStateItsValue :
    (List.replicate 3584 (0xFF : Byte)).length ≤ 3584 := List.length_replicate.le

/-- The longest image that fits and the shortest that does not. -/
theorem witness_ResetIsDefinedForImagesThatFit :
    (List.replicate 3584 (0xFF : Byte)).length ≤ 3584 ∧
    3584 < (List.replicate 3585 (0xFF : Byte)).length := by
  rw [List.length_replicate, List.length_replicate]; decide

theorem witness_BeepsComeOnlyFromATickAtOne :
    (∃ t, hostMove .tick { State.reset with ST := 1 } = .next t ∧ t.report = .ticked true) ∧
    (∃ t, hostMove .tick { State.reset with ST := 2 } = .next t ∧ t.report ≠ .ticked true) ∧
    (∃ t, hostMove (.step Keys.none none) { State.reset with ST := 1 } = .next t) :=
  ⟨⟨_, rfl, rfl⟩, ⟨_, rfl, by decide⟩, ⟨_, rfl⟩⟩

theorem witness_TicksCommuteWithInstructionsThatNameNoTimer :
    (∀ x, (Instr.addImm 0 1) ≠ .ldVxDt x ∧ (Instr.addImm 0 1) ≠ .ldDtVx x ∧ (Instr.addImm 0 1) ≠ .ldStVx x) ∧
    (∃ t, exec (.addImm 0 1) .reset = .next t) := ⟨by decide, ⟨_, rfl⟩⟩

/-- The first slot, the last slot and the full stack. -/
theorem witness_CallPushesItsOwnAddress :
    (withStack 0).sp.val = (0 : Fin 16).val ∧ (withStack 15).sp.val = (15 : Fin 16).val ∧
    (withStack 16).sp.val = 16 := by decide

/-- One entry, sixteen entries and none. -/
theorem witness_ReturnPopsTheNewestEntry :
    (withStack 1).sp.val = (0 : Fin 16).val + 1 ∧ (withStack 16).sp.val = (15 : Fin 16).val + 1 ∧
    (withStack 0).sp.val = 0 := by decide

/-- The last free slot and the only entry, and the full and the empty stack. -/
theorem witness_CallAndReturnCompleteExactlyWithRoomOnTheStack :
    (withStack 15).sp.val < 16 ∧ (∃ t, exec (.call 0x300) (withStack 15) = .next t) ∧
    0 < (withStack 1).sp.val ∧ (∃ t, exec .ret (withStack 1) = .next t) ∧
    ¬ (withStack 16).sp.val < 16 ∧ ¬ 0 < (withStack 0).sp.val :=
  ⟨by decide, ⟨_, rfl⟩, by decide, ⟨_, rfl⟩, by decide, by decide⟩

theorem witness_CallThenReturnResumesAfterTheCall :
    (withStack 15).sp.val < 16 ∧
    ∃ t, exec (.call 0x300) (withStack 15) = .next t ∧
      ∃ u : State, u.S = t.S ∧ u.sp = t.sp ∧ u.pc ≠ t.pc :=
  ⟨by decide, _, rfl, { withStack 15 with S := (withStack 15).S.set 15 0x200, sp := 16 }, rfl, rfl, by decide⟩

/-- A Jump to itself at pc, and events that keep the machine running. -/
theorem witness_AFinishedProgramStaysFinished :
    (State.reset.withFetchWord 16 0x1200).finished ∧
    ∀ e ∈ [HostEvent.step (keysOf [0]) none, .tick], e.keepsRunning = true :=
  ⟨⟨0x200, rfl, rfl⟩, by decide⟩

/-- The lowest and the highest key, the highest with a byte above 15. -/
theorem witness_SkipsAdvanceByFourExactlyOnTheirCondition :
    (withV [0x00]).V[(0 : Reg)].toNat % 16 = (0 : Fin 16).val ∧
    (withV [0xFF]).V[(0 : Reg)].toNat % 16 = (15 : Fin 16).val := by decide

/-- The flag register as destination and another register, for the three statements with `x ≠ VF`. -/
theorem witness_AddSetsTheCarry : (0 : Reg) ≠ VF ∧ (14 : Reg) ≠ VF := by decide

theorem witness_SubtractsClearTheFlagOnABorrow : (0 : Reg) ≠ VF ∧ (14 : Reg) ≠ VF := by decide

theorem witness_ShiftsKeepTheDroppedBitInVF : (0 : Reg) ≠ VF ∧ (14 : Reg) ≠ VF := by decide

theorem witness_RandomizeMasksAnyRandomByte :
    ({ State.reset with rnd := some 0xA7 } : State).rnd = some 0xA7 ∧ State.reset.rnd = none := by decide

/-- The last access inside memory and the first beyond it. -/
theorem witness_BcdStoreWritesThreeDigits :
    (withI 0xFFD 0 [1]).M.wf = true ∧ (withI 0xFFD 0 [1]).I.toNat + 2 ≤ 0xFFF ∧
    (withI 0xFFE 0 [1]).M.wf = true ∧ (withI 0xFFE 0 [1]).I.toNat + 2 > 0xFFF := by decide

theorem witness_BlockStoreWritesTheFirstRegisters :
    (withI 0xFF0 0 [1]).M.wf = true ∧ (withI 0xFF0 0 [1]).I.toNat + (15 : Reg).val ≤ 0xFFF ∧
    (withI 0xFF1 0 [1]).M.wf = true ∧ (withI 0xFF1 0 [1]).I.toNat + (15 : Reg).val > 0xFFF := by decide

theorem witness_BlockLoadReadsTheFirstRegisters :
    (withI 0xFFF 0 []).I.toNat + (0 : Reg).val ≤ 0xFFF ∧
    (withI 0xFFF 0 []).I.toNat + (1 : Reg).val > 0xFFF := by decide

theorem witness_AStoredInstructionIsFetchedNext :
    let s := { withI 0xFFE 0 [] with pc := 0xFFC }
    s.M.wf = true ∧ 1 ≤ (1 : Reg).val ∧ s.I = s.pc + 2 ∧ s.I.toNat + (1 : Reg).val ≤ 0xFFF := by decide

/-- No row at any I, the last row inside memory, the first row beyond it; a pixel set under the sprite
and none set. -/
theorem witness_DrawXorsTheSpriteAndReportsCollision :
    (0 : Nibble) = 0 ∧ (withI 0xFFF 0 [0x81]).I.toNat + (1 : Nibble).toNat - 1 ≤ 0xFFF ∧
    (2 : Nibble) ≠ 0 ∧ (withI 0xFFF 0 [0x81]).I.toNat + (2 : Nibble).toNat - 1 > 0xFFF ∧
    underSprite (withI 0xFFF 0 [0x81]).M 0xFFF 1 0 0 7 ∧
    pixel (Vector.replicate 32 0x80) 7 = true ∧ pixel (Vector.replicate 32 0) 7 = false :=
  ⟨rfl, by decide, by decide, by decide, ⟨0, 7, by decide, by decide, by decide, by decide⟩, by decide,
    by decide⟩

theorem witness_DrawingTwiceRestoresTheFramebuffer :
    (0 : Reg) ≠ VF ∧ (14 : Reg) ≠ VF ∧ (withI 0xFF1 0 []).I.toNat + (15 : Nibble).toNat - 1 ≤ 0xFFF := by
  decide

/-- No key; the lowest and the highest key as the first one pressed. -/
theorem witness_WaitForKeySuspendsOrTakesTheLowestKey :
    (∀ k : Fin 16, State.reset.K[k] = false) ∧
    (keysOf [0, 15])[(0 : Fin 16)] = true ∧ (∀ j : Fin 16, j.val < (0 : Fin 16).val → (keysOf [0, 15])[j] = false) ∧
    (keysOf [15])[(15 : Fin 16)] = true ∧ (∀ j : Fin 16, j.val < (15 : Fin 16).val → (keysOf [15])[j] = false) := by
  decide

theorem witness_WaitingEndsWithTheFirstKey :
    (State.reset.withFetchWord 16 0xF30A).fetch = .ok (encode (.ldVxK 3)) ∧
    (∀ e ∈ [HostEvent.tick, .step Keys.none (some 7)], e.pressesNothing = true) ∧
    (keysOf [7, 9])[(7 : Fin 16)] = true ∧ (∀ j : Fin 16, j.val < (7 : Fin 16).val → (keysOf [7, 9])[j] = false) :=
  ⟨rfl, by decide, by decide, by decide⟩

theorem witness_UnrecognizedWordsAreReportedNoOps : recognized 0x0000 = false ∧ recognized 0xFFFF = false := by
  decide

/-- A Step on an unrecognized word, and one on a recognized word. -/
theorem witness_OnlyUnrecognizedWordsAreReported :
    (∃ t, hostMove (.step Keys.none none) (State.reset.withFetchWord 16 0x9121) = .next t ∧
      t.report = .unknownOpcode 0x200 0x9121) ∧
    (∃ t, hostMove (.step Keys.none none) (State.reset.withFetchWord 16 0x9120) = .next t ∧ t.report = .ok) :=
  ⟨⟨_, rfl, rfl⟩, ⟨_, rfl, rfl⟩⟩

end Sys2Proof.Tests
end

/-! PROOFS. The statements of 10_state: what an instruction that completes can do (`Completion`), from
which the program counter, the frame of every field and the invariant follow; and the Reset. -/

namespace Sys2Proof.Machine

/-! ## What an instruction that completes can do

`Completion s i t` lists, once, every way in which an instruction leaves the state, with its guard: the
skips, the results in a register and the results with a flag are one form each (10_state R12, R16). -/

/-- `t` is a state in which the instruction `i`, started in `s`, can complete. -/
inductive Completion (s : State) : Instr → State → Prop
  | skip {i c} (hc : skipCondition i s = some c) : Completion s i (s.skipIf c)
  | register {i x} (b : Byte) (hw : regWrites i = [x]) (hpc : pcAfter i s = s.pc + 2) :
      Completion s i (s.setV x b).advance
  | registerAndFlag {i x} (b : Byte) (f : Bool) (hw : regWrites i = [x]) (hf : writesFlag i = true) :
      Completion s i ((s.setV x b).setV VF (flagByte f)).advance
  | cls : Completion s .cls ({ s with FB := Vector.replicate 32 0 } : State).advance
  | ret (h : 0 < s.sp.val) : Completion s .ret
      (({ s with sp := ⟨s.sp.val - 1, by omega⟩ } : State).goto (s.S[s.sp.val - 1]'(by omega) + 2))
  | jp nnn : Completion s (.jp nnn) (s.goto (addressOf nnn))
  | call nnn (h : s.sp.val < 16) : Completion s (.call nnn)
      (({ s with S := s.S.set s.sp.val s.pc, sp := ⟨s.sp.val + 1, by omega⟩ } : State).goto (addressOf nnn))
  | jpV0 nnn : Completion s (.jpV0 nnn) (s.goto (BitVec.ofNat 16 (nnn.toNat + s.V[(0 : Reg)].toNat)))
  | rnd x kk : Completion s (.rnd x kk) (s.drawRandom.setV x (s.randomByte &&& kk)).advance
  | ldI nnn : Completion s (.ldI nnn) ({ s with I := addressOf nnn } : State).advance
  | addI x : Completion s (.addI x) (({ s with I := s.I + s.V[x].setWidth 16 } : State).setV VF
      (flagByte (indexOverflow s.I s.V[x]))).advance
  | ldF x : Completion s (.ldF x) ({ s with I := BitVec.ofNat 16 (s.V[x].toNat * 5) } : State).advance
  | ldDtVx x : Completion s (.ldDtVx x) ({ s with DT := s.V[x] } : State).advance
  | ldStVx x : Completion s (.ldStVx x) ({ s with ST := s.V[x] } : State).advance
  | suspend x (hk : s.K = Keys.none) : Completion s (.ldVxK x) s.suspend
  | drw x y n (h : n.toNat = 0 ∨ s.I.toNat + n.toNat ≤ 0x1000) : Completion s (.drw x y n)
      (({ s with FB := (s.drawn x y n).1 } : State).setV VF (flagByte (s.drawn x y n).2)).advance
  | ldB x (h : s.I.toNat + 3 ≤ 0x1000) : Completion s (.ldB x) (s.storeAtI (bcdDigits s.V[x])).advance
  | stRegs x (h : s.I.toNat + (x.val + 1) ≤ 0x1000) : Completion s (.stRegs x)
      ((s.storeAtI (s.firstRegs x)).advanceI (x.val + 1)).advance
  | ldRegs x (h : s.I.toNat + (x.val + 1) ≤ 0x1000) : Completion s (.ldRegs x)
      (({ s with V := s.loadedRegs x s.I.toNat } : State).advanceI (x.val + 1)).advance
  | unk op : Completion s (.unk op) (s.advanceUnknown op)

theorem Keys.ne_none_of_down {keys : Keys} {k : Reg} (hk : keys[k] = true) : keys ≠ Keys.none := fun h =>
  Bool.false_ne_true (((Keys.none_iff keys).1 h k).symm.trans hk)

/-- An instruction that answers a next state completes in one of the listed ways. -/
theorem completion_of_exec {i : Instr} {s t : State} (h : exec i s = .next t) : Completion s i t := by
  cases i with
  | ret =>
    rcases exec_ret_cases s with ⟨-, hx⟩ | ⟨h0, hx⟩ <;> rw [hx] at h <;> cases h
    exact .ret h0
  | call nnn =>
    rcases exec_call_cases nnn s with ⟨-, hx⟩ | ⟨h0, hx⟩ <;> rw [hx] at h <;> cases h
    exact .call nnn h0
  | ldVxK x =>
    rcases exec_ldVxK_cases x s with ⟨hk, hx⟩ | ⟨k, hk, -, hx⟩ <;> rw [hx] at h <;> cases h
    · exact .suspend x ((Keys.none_iff s.K).2 hk)
    · exact .register _ rfl (if_neg (Keys.ne_none_of_down hk))
  | drw x y n =>
    rw [exec_drw, withData_next_iff] at h
    obtain ⟨hI, rfl⟩ := h
    exact .drw x y n hI
  | ldB x =>
    rw [exec_ldB, withData_next_iff] at h
    obtain ⟨hI, rfl⟩ := h
    exact .ldB x (by omega)
  | stRegs x =>
    rw [exec_stRegs, withData_next_iff] at h
    obtain ⟨hI, rfl⟩ := h
    exact .stRegs x (by omega)
  | ldRegs x =>
    rw [exec_ldRegs, withData_next_iff] at h
    obtain ⟨hI, rfl⟩ := h
    exact .ldRegs x (by omega)
  | seImm | sneImm | seReg | sneReg | skp | sknp => cases h; exact .skip rfl
  | ldImm | addImm | ldReg | or | and | xor | ldVxDt => cases h; exact .register _ rfl rfl
  | addReg | sub | shr | subn | shl => cases h; exact .registerAndFlag _ _ rfl rfl
  | cls => cases h; exact .cls
  | jp nnn => cases h; exact .jp nnn
  | jpV0 nnn => cases h; exact .jpV0 nnn
  | rnd x kk => cases h; exact .rnd x kk
  | ldI nnn => cases h; exact .ldI nnn
  | addI x => cases h; exact .addI x
  | ldF x => cases h; exact .ldF x
  | ldDtVx x => cases h; exact .ldDtVx x
  | ldStVx x => cases h; exact .ldStVx x
  | unk op => cases h; exact .unk op

/-! ## The program counter (10_state R16) -/

theorem pcAfter_of_skipCondition {i : Instr} {s : State} {c : Bool} (h : skipCondition i s = some c) :
    pcAfter i s = if c then s.pc + 4 else s.pc + 2 := by
  cases i with
  | seImm | sneImm | seReg | sneReg | skp | sknp => simp [pcAfter, h]
  | _ => cases h

theorem pcAfter_of_writesFlag {i : Instr} (h : writesFlag i = true) (s : State) :
    pcAfter i s = s.pc + 2 := by
  cases i with
  | addReg | sub | shr | subn | shl | addI | drw => rfl
  | _ => cases h

/-- `nnn + V0` as a 16-bit sum: it is below 65536, so nothing wraps (40_control_transfer R83). -/
theorem jumpTarget_eq_add (nnn : Imm12) (b : Byte) :
    BitVec.ofNat 16 (nnn.toNat + b.toNat) = nnn.setWidth 16 + b.setWidth 16 := by
  apply BitVec.eq_of_toNat_eq
  simp

theorem Completion.pc_eq {i : Instr} {s t : State} (h : Completion s i t) : t.pc = pcAfter i s := by
  cases h with
  | skip hc => exact (pcAfter_of_skipCondition hc).symm
  | register b hw hpc => exact hpc.symm
  | registerAndFlag b f hw hf => exact (pcAfter_of_writesFlag hf s).symm
  | ret h =>
    have hlen : s.sp.val - 1 < 16 := by omega
    simp [pcAfter, hlen]
  | jpV0 nnn => exact jumpTarget_eq_add nnn _
  | suspend x hk => exact (if_pos hk).symm
  | jp | call => rfl
  | _ => simp [pcAfter]

/-- After a fault the total transition function keeps the state but for the sampled inputs. -/
theorem transition_of_fault {e : HostEvent} {s : State} {f : Fault} (h : hostMove e s = .fault f) :
    transition e s = { s.inputsOf e with report := .faulted f } := by
  simp [transition, h]

/-- Settles O14: by the ways an instruction can complete; a faulting Step keeps pc. -/
theorem programCounterFollowsTheTable : Obligations.ProgramCounterFollowsTheTable := by
  unfold Obligations.ProgramCounterFollowsTheTable
  refine ⟨fun i s t h => (completion_of_exec h).pc_eq, fun s keys r f h => ?_⟩
  rw [transition_of_fault h]
  rfl

/-! ## The general registers (10_state R12, R13) -/

theorem State.getElem_setV_of_ne (s : State) {x r : Reg} (h : r ≠ x) (b : Byte) :
    (s.setV x b).V[r] = s.V[r] := by
  simp [Fin.val_ne_of_ne h]

theorem State.eq_of_setV_ne {s : State} {x r : Reg} {b : Byte} (h : (s.setV x b).V[r] ≠ s.V[r]) : r = x :=
  by_contra fun hne => h (s.getElem_setV_of_ne hne b)

theorem mem_regsUpTo {x r : Reg} : r ∈ regsUpTo x ↔ r ≤ x := by simp [regsUpTo]

theorem State.getElem_loadedRegs_of_not_le (s : State) {x r : Reg} (h : ¬ r ≤ x) (a : Nat) :
    (s.loadedRegs x a)[r] = s.V[r] := by
  simp [State.loadedRegs, h]

theorem Completion.reg_ne {i : Instr} {s t : State} (h : Completion s i t) {r : Reg}
    (hr : t.V[r] ≠ s.V[r]) : r ∈ regWrites i ∨ (writesFlag i = true ∧ r = VF) := by
  cases h with
  | register b hw =>
    rw [hw]
    exact .inl (List.mem_singleton.2 (State.eq_of_setV_ne hr))
  | @registerAndFlag _ x b f hw hf =>
    by_cases hVF : r = VF
    · exact .inr ⟨hf, hVF⟩
    · rw [hw]
      refine .inl (List.mem_singleton.2 (by_contra fun hx => hr ?_))
      exact (State.getElem_setV_of_ne _ hVF _).trans (State.getElem_setV_of_ne _ hx _)
  | rnd x kk => exact .inl (List.mem_singleton.2 (State.eq_of_setV_ne (s := s.drawRandom) hr))
  | ldRegs x =>
    exact .inl (mem_regsUpTo.2 (by_contra fun hx => hr (s.getElem_loadedRegs_of_not_le hx _)))
  | addI x => exact .inr ⟨rfl, State.eq_of_setV_ne (s := { s with I := _ }) hr⟩
  | drw x y n => exact .inr ⟨rfl, State.eq_of_setV_ne (s := { s with FB := _ }) hr⟩
  | _ => simp at hr

/-- Settles O15: by the ways an instruction can complete. -/
theorem registersChangeOnlyAsTabulated : Obligations.RegistersChangeOnlyAsTabulated := by
  unfold Obligations.RegistersChangeOnlyAsTabulated
  exact fun i s t h r hr => (completion_of_exec h).reg_ne hr

/-! ## The other pieces of state (10_state R10, R14, R19, R22) -/

section
variable {i : Instr} {s t : State}

theorem Completion.M_ne (h : Completion s i t) (hM : t.M ≠ s.M) : ∃ x, i = .ldB x ∨ i = .stRegs x := by
  cases h with
  | ldB x => exact ⟨x, .inl rfl⟩
  | stRegs x => exact ⟨x, .inr rfl⟩
  | _ => simp at hM

theorem Completion.I_ne (h : Completion s i t) (hI : t.I ≠ s.I) :
    (∃ nnn, i = .ldI nnn) ∨ ∃ x, i = .addI x ∨ i = .ldF x ∨ i = .stRegs x ∨ i = .ldRegs x := by
  cases h with
  | ldI nnn => exact .inl ⟨nnn, rfl⟩
  | addI x => exact .inr ⟨x, .inl rfl⟩
  | ldF x => exact .inr ⟨x, .inr (.inl rfl)⟩
  | stRegs x => exact .inr ⟨x, .inr (.inr (.inl rfl))⟩
  | ldRegs x => exact .inr ⟨x, .inr (.inr (.inr rfl))⟩
  | _ => simp at hI

theorem Completion.S_ne (h : Completion s i t) (hS : t.S ≠ s.S) : ∃ nnn, i = .call nnn := by
  cases h with
  | call nnn => exact ⟨nnn, rfl⟩
  | _ => simp at hS

theorem Completion.sp_ne (h : Completion s i t) (hsp : t.sp ≠ s.sp) :
    ((∃ nnn, i = .call nnn) ∧ t.sp.val = s.sp.val + 1) ∨ (i = .ret ∧ t.sp.val + 1 = s.sp.val) := by
  cases h with
  | call nnn => exact .inl ⟨⟨nnn, rfl⟩, rfl⟩
  | ret h => exact .inr ⟨rfl, Nat.succ_pred_eq_of_pos h⟩
  | _ => simp at hsp

theorem Completion.FB_ne (h : Completion s i t) (hFB : t.FB ≠ s.FB) :
    i = .cls ∨ ∃ x y n, i = .drw x y n := by
  cases h with
  | cls => exact .inl rfl
  | drw x y n => exact .inr ⟨x, y, n, rfl⟩
  | _ => simp at hFB

theorem Completion.DT_ne (h : Completion s i t) (hDT : t.DT ≠ s.DT) : ∃ x, i = .ldDtVx x := by
  cases h with
  | ldDtVx x => exact ⟨x, rfl⟩
  | _ => simp at hDT

theorem Completion.ST_ne (h : Completion s i t) (hST : t.ST ≠ s.ST) : ∃ x, i = .ldStVx x := by
  cases h with
  | ldStVx x => exact ⟨x, rfl⟩
  | _ => simp at hST

/-- The host's inputs and its schedule are written by no instruction (10_state R22; log 2, 3). -/
theorem Completion.hostFields_eq (h : Completion s i t) :
    t.K = s.K ∧ t.rnd = s.rnd ∧ t.schedule = s.schedule := by
  cases h <;> simp

end

/-- Settles O18: field by field, by the ways an instruction can complete. -/
theorem otherStateIsWrittenOnlyAsTabulated : Obligations.OtherStateIsWrittenOnlyAsTabulated := by
  unfold Obligations.OtherStateIsWrittenOnlyAsTabulated
  intro i s t h
  have hc := completion_of_exec h
  obtain ⟨hK, -, hschedule⟩ := hc.hostFields_eq
  exact ⟨hc.M_ne, hc.I_ne, hc.S_ne, hc.sp_ne, hc.FB_ne, hc.DT_ne, hc.ST_ne, hK, hschedule⟩

/-! ## The invariant (10_state R27) -/

/-- The one new stack entry is the pc of a Call, which was fetched below 0xFFF. -/
theorem Completion.keeps_stack_le {i : Instr} {s t : State} (h : Completion s i t) (hs : s.Inv)
    (hpc : s.pc.toNat < 0xFFF) : ∀ j : Fin 16, j.val < t.sp.val → t.S[j].toNat ≤ 0xFFE := by
  cases h with
  | call nnn h =>
    intro j hj
    rcases Nat.lt_succ_iff_lt_or_eq.1 hj with hlt | heq
    · simpa [Vector.getElem_set, (Nat.ne_of_lt hlt).symm] using hs.stack_le j hlt
    · simpa [← heq] using Nat.le_of_lt_succ hpc
  | ret h => exact fun j hj => hs.stack_le j (Nat.lt_of_lt_pred hj)
  | _ => simpa using hs.stack_le

theorem State.firstRegs_length (s : State) (x : Reg) : (s.firstRegs x).length = x.val + 1 := by
  simp [State.firstRegs]

/-- The stores check their bounds before they write (20_memory R50). -/
theorem Completion.keeps_mem_wf {i : Instr} {s t : State} (h : Completion s i t) (hs : s.Inv) :
    t.M.wf = true := by
  cases h with
  | ldB x h => exact Memory.writeBytes_wf hs.mem_wf h
  | stRegs x h => exact Memory.writeBytes_wf hs.mem_wf (by rw [State.firstRegs_length]; exact h)
  | _ => simpa using hs.mem_wf

theorem addressOf_toNat_lt (nnn : Imm12) : (addressOf nnn).toNat < 0x1000 := by
  rw [addressOf, BitVec.toNat_setWidth]
  omega

/-- The highest pc comes from a Jump with offset: 0xFFF + 0xFF. -/
theorem Completion.keeps_pc_le {i : Instr} {s t : State} (h : Completion s i t) (hs : s.Inv)
    (hpc : s.pc.toNat < 0xFFF) : t.pc.toNat ≤ 0x10FE := by
  have hadvance : (s.pc + 2).toNat ≤ 0x10FE := by bv_omega
  have hskip : (s.pc + 4).toNat ≤ 0x10FE := by bv_omega
  cases h with
  | @skip _ c hc =>
    cases c
    · exact hadvance
    · exact hskip
  | ret h =>
    have hentry : (s.S[s.sp.val - 1]'(by omega)).toNat ≤ 0xFFE :=
      hs.stack_le ⟨s.sp.val - 1, by omega⟩ (Nat.sub_lt h Nat.one_pos)
    rw [State.goto_pc]
    bv_omega
  | jp nnn | call nnn =>
    have := addressOf_toNat_lt nnn
    rw [State.goto_pc]
    omega
  | jpV0 nnn =>
    rw [State.goto_pc, BitVec.toNat_ofNat]
    omega
  | suspend => exact hs.pc_le
  | _ => simpa using hadvance

theorem Completion.keeps_inv {i : Instr} {s t : State} (h : Completion s i t) (hs : s.Inv)
    (hpc : s.pc.toNat < 0xFFF) : t.Inv :=
  ⟨h.keeps_pc_le hs hpc, h.keeps_stack_le hs hpc, h.keeps_mem_wf hs⟩

/-- A Step keeps the invariant: its instruction was fetched, so pc is below 0xFFF. -/
theorem cycle_keeps_inv {s t : State} (h : cycle s = .next t) (hs : s.Inv) : t.Inv := by
  obtain ⟨op, hf, hx⟩ := cycle_next h
  exact (completion_of_exec hx).keeps_inv hs ((s.fetch_ok_iff op).1 hf).1

/-- The invariant looks only at pc, the stack and memory. -/
theorem State.Inv.congr {s t : State} (hs : s.Inv) (hpc : t.pc = s.pc) (hS : t.S = s.S) (hsp : t.sp = s.sp)
    (hM : t.M = s.M) : t.Inv := by
  obtain ⟨h1, h2, h3⟩ := hs
  rw [← hM] at h3
  exact ⟨by rwa [hpc], by rwa [hS, hsp], h3⟩

/-- The invariant holds right after a Reset with an image that fits, whatever the state before. -/
theorem State.boot_inv (s : State) {program : List Byte} (h : program.length ≤ 3584) : (s.boot program).Inv where
  pc_le := by simp
  stack_le j hj := by simp
  mem_wf := Memory.writeBytes_wf Memory.nil_wf (by simp [Config.progBase, Config.memSize]; omega)

/-- Settles O21: a Step keeps the invariant by the ways its instruction can complete, a Tick touches
none of its fields, and a Reset establishes it. -/
theorem everyStepKeepsTheInvariant : Obligations.EveryStepKeepsTheInvariant := by
  unfold Obligations.EveryStepKeepsTheInvariant
  intro s t hs h
  rcases step_next h with ⟨-, hc⟩ | ⟨keys, r, rest, -, hc⟩ | ⟨rest, -, rfl⟩ | ⟨p, rest, -, hp, rfl⟩
  · exact cycle_keeps_inv hc (hs.congr rfl rfl rfl rfl)
  · exact cycle_keeps_inv hc (hs.congr rfl rfl rfl rfl)
  · exact hs.congr rfl rfl rfl rfl
  · exact State.boot_inv _ hp

/-- Settles O22: the reset state is the state after a Reset with the empty image (log 1). -/
theorem theResetStateMeetsTheInvariant : Obligations.TheResetStateMeetsTheInvariant := by
  unfold Obligations.TheResetStateMeetsTheInvariant
  exact State.boot_inv State.reset (program := []) (Nat.zero_le _)

/-! ## Reset (10_state R26) -/

theorem FONT_length : FONT.length = 80 := rfl

theorem Memory.unlisted_above_font {a : Nat} (h : 0x050 ≤ a) : Memory.unlisted a = 0 :=
  List.getD_eq_default _ _ (FONT_length.trans_le h)

theorem pixel_blank (p : Pixel) : pixel (Vector.replicate 32 0) p = false := by
  simp [pixel]

/-- What each byte of memory holds after a Reset with an image that fits. -/
theorem State.boot_read (s : State) {program : List Byte} (h : program.length ≤ 3584) (a : Nat) :
    (s.boot program).M.read a =
      if 0x200 ≤ a ∧ a < 0x200 + program.length then program.getD (a - 0x200) 0 else Memory.unlisted a :=
  Memory.read_writeBytes Memory.nil_wf (by simp [Config.progBase, Config.memSize]; omega) a

theorem reboot_of_fits {program : List Byte} (h : program.length ≤ 3584) (s : State) :
    reboot program s = .next (s.boot program) := if_pos h

/-- Settles O23: memory by the read after the load, the other fields by the laws of `boot`. -/
theorem resetGivesEveryPieceOfStateItsValue : Obligations.ResetGivesEveryPieceOfStateItsValue := by
  unfold Obligations.ResetGivesEveryPieceOfStateItsValue
  intro s program h
  have hread := s.boot_read h
  refine ⟨s.boot program, reboot_of_fits h s, ?font, ?between, ?image, ?above, by simp, rfl, rfl, by simp, rfl,
    pixel_blank, rfl, rfl, by simp⟩
  case font =>
    intro a ha
    rw [hread, if_neg (by omega)]
    rfl
  case between =>
    intro a hlo hhi
    rw [hread, if_neg (by omega), Memory.unlisted_above_font hlo]
  case image =>
    intro k hk
    rw [hread, if_pos (by omega), Nat.add_sub_cancel_left]
  case above =>
    intro a hlo _
    rw [hread, if_neg (by omega), Memory.unlisted_above_font (by omega)]

end Sys2Proof.Machine

namespace Sys2Proof.Machine

/-! PROOFS. The noninterference statements of 10_state.

## What an instruction can read (10_state R12, R21, R22)

Two runs of one instruction, from `s` and from `s'`, that differ at most in registers it does not
read, in the sound timer and in inputs it does not read: they fault alike or write alike. -/

/-- The key instructions, which read the keypad lines (10_state R22). -/
def readsKeys (i : Instr) : Prop := ∃ x, i = .skp x ∨ i = .sknp x ∨ i = .ldVxK x

/-- Randomize, which reads the random byte (42_alu R114). -/
def readsRandom (i : Instr) : Prop := ∃ x kk, i = .rnd x kk

/-- `s'` is `s` but for the registers, the sound timer and the host's inputs. -/
def SameCore (s s' : State) : Prop :=
  s' = { s with V := s'.V, ST := s'.ST, K := s'.K, rnd := s'.rnd }

/-- `s` and `s'` agree on everything the instruction `i` reads. -/
structure AgreeOnReads (i : Instr) (s s' : State) : Prop where
  core : SameCore s s'
  regs : ∀ r ∈ regReads i, s'.V[r] = s.V[r]
  keys : readsKeys i → s'.K = s.K
  random : readsRandom i → s'.rnd = s.rnd

/-- From `s` to `t` and from `s'` to `t'` the same was written, and nothing to the host's inputs. -/
structure SameWrites (s s' t t' : State) : Prop where
  core : SameCore t t'
  regs : ∀ q : Reg, t'.V[q] = t.V[q] ∨ (t'.V[q] = s'.V[q] ∧ t.V[q] = s.V[q])
  sound : t'.ST = t.ST ∨ (t'.ST = s'.ST ∧ t.ST = s.ST)
  keys : t'.K = s'.K ∧ t.K = s.K
  random : t'.rnd = s'.rnd ∧ t.rnd = s.rnd

/-- Both runs answer a next state and wrote the same, or both fault alike. -/
inductive SameOutcome (s s' : State) : Result → Result → Prop
  | next {t t'} (h : SameWrites s s' t t') : SameOutcome s s' (.next t) (.next t')
  | fault f : SameOutcome s s' (.fault f) (.fault f)

/-- The update `F` neither reads nor writes the registers, the sound timer and the host's inputs. -/
def ActsOnCore (F : State → State) : Prop :=
  ∀ t v st keys r, F { t with V := v, ST := st, K := keys, rnd := r } =
    { F t with V := v, ST := st, K := keys, rnd := r }

/-! ### Updates that keep two runs alike -/

theorem SameCore.exists_eq {s s' : State} (h : SameCore s s') :
    ∃ v st keys r, s' = { s with V := v, ST := st, K := keys, rnd := r } := ⟨_, _, _, _, h⟩

theorem SameCore.refl_writes {s s' : State} (h : SameCore s s') : SameWrites s s' s s' :=
  ⟨h, fun _ => .inr ⟨rfl, rfl⟩, .inr ⟨rfl, rfl⟩, ⟨rfl, rfl⟩, rfl, rfl⟩

section
variable {s s' t t' : State}

theorem SameWrites.map (h : SameWrites s s' t t') (F : State → State)
    (hF : ActsOnCore F := by intro _ _ _ _ _; rfl) : SameWrites s s' (F t) (F t') := by
  obtain ⟨hcore, hregs, hsound, hkeys, hrandom⟩ := h
  have ht : F t = { F t with V := t.V, ST := t.ST, K := t.K, rnd := t.rnd } := hF t t.V t.ST t.K t.rnd
  have ht' : F t' = { F t with V := t'.V, ST := t'.ST, K := t'.K, rnd := t'.rnd } := by
    conv_lhs => rw [hcore]
    exact hF t _ _ _ _
  rw [ht', ht]
  exact ⟨rfl, hregs, hsound, hkeys, hrandom⟩

theorem SameWrites.setV (h : SameWrites s s' t t') (x : Reg) (b : Byte) :
    SameWrites s s' (t.setV x b) (t'.setV x b) := by
  obtain ⟨hcore, hregs, hsound, hkeys, hrandom⟩ := h
  obtain ⟨v, st, keys, r, rfl⟩ := hcore.exists_eq
  refine ⟨rfl, fun q => ?_, hsound, hkeys, hrandom⟩
  by_cases hq : q = x
  · exact .inl (by simp [hq])
  · rw [State.getElem_setV_of_ne _ hq, State.getElem_setV_of_ne _ hq]
    exact hregs q

theorem SameWrites.setST (h : SameWrites s s' t t') (b : Byte) :
    SameWrites s s' { t with ST := b } { t' with ST := b } := by
  obtain ⟨hcore, hregs, -, hkeys, hrandom⟩ := h
  obtain ⟨v, st, keys, r, rfl⟩ := hcore.exists_eq
  exact ⟨rfl, hregs, .inl rfl, hkeys, hrandom⟩

theorem SameWrites.finishReg (h : SameWrites s s' t t') (x : Reg) {b b' : Byte} (hb : b' = b) :
    SameOutcome s s' (finishReg t x b) (finishReg t' x b') := by
  subst hb
  exact .next ((h.setV x b').map State.advance)

theorem SameWrites.finishRegFlag (h : SameWrites s s' t t') (x : Reg) {b b' : Byte} {f f' : Bool}
    (hb : b' = b) (hf : f' = f) : SameOutcome s s' (finishRegFlag t x b f) (finishRegFlag t' x b' f') := by
  subst hb hf
  exact .next (((h.setV x b').setV VF (flagByte f')).map State.advance)

theorem SameWrites.skipIf (h : SameWrites s s' t t') {c c' : Bool} (hc : c' = c) :
    SameOutcome s s' (.next (t.skipIf c)) (.next (t'.skipIf c')) := by
  subst hc
  exact .next (h.map (·.skipIf c'))

/-- The check of a data access passes in both runs or faults alike. -/
theorem SameCore.withData (h : SameCore s s') (i : Instr) (n : Nat) (ht : SameWrites s s' t t') :
    SameOutcome s s' (withData s i n (.next t)) (withData s' i n (.next t')) := by
  obtain ⟨v, st, keys, r, rfl⟩ := h.exists_eq
  unfold Machine.withData
  dsimp only
  split
  · exact .fault _
  · exact .next ht

/-- Both runs find a free slot and push the same, or both overflow. -/
theorem SameCore.call (h : SameCore s s') (nnn : Imm12) :
    SameOutcome s s' (exec (.call nnn) s) (exec (.call nnn) s') := by
  have hw := h.refl_writes
  obtain ⟨v, st, keys, r, rfl⟩ := h.exists_eq
  simp only [exec, execCall, State.push]
  by_cases hsp : s.sp.val < 16
  · simp only [hsp, dite_true]
    exact .next (hw.map (fun t => ({ t with
      S := s.S.set s.sp.val s.pc, sp := ⟨s.sp.val + 1, by omega⟩ } : State).goto (addressOf nnn)))
  · simp only [hsp, dite_false]
    exact .fault _

/-- Both runs pop the same entry, or both underflow. -/
theorem SameCore.ret (h : SameCore s s') : SameOutcome s s' (exec .ret s) (exec .ret s') := by
  have hw := h.refl_writes
  obtain ⟨v, st, keys, r, rfl⟩ := h.exists_eq
  simp only [exec, execRet, State.pop]
  by_cases hsp : 0 < s.sp.val
  · simp only [hsp, dite_true]
    exact .next (hw.map (fun t => ({ t with sp := ⟨s.sp.val - 1, by omega⟩ } : State).goto
      (s.S[s.sp.val - 1]'(by omega) + 2)))
  · simp only [hsp, dite_false]
    exact .fault _

end

/-! ### What the operands are in the two runs -/

section
variable {i : Instr} {s s' : State}

theorem AgreeOnReads.getV (h : AgreeOnReads i s s') {x : Reg} (hx : x ∈ regReads i) :
    s'.getV x = s.getV x := h.regs x hx

theorem AgreeOnReads.lowestKey (h : AgreeOnReads i s s') (hi : readsKeys i) :
    s'.lowestKey = s.lowestKey := by
  simp [State.lowestKey, State.keyDown, h.keys hi]

theorem AgreeOnReads.drawn {x y : Reg} {n : Nibble} (h : AgreeOnReads (.drw x y n) s s') :
    s'.drawn x y n = s.drawn x y n := by
  unfold State.drawn
  rw [h.getV (x := x) (by simp [regReads]), h.getV (x := y) (by simp [regReads]), h.core]

theorem AgreeOnReads.firstRegs {x : Reg} (h : AgreeOnReads (.stRegs x) s s') :
    s'.firstRegs x = s.firstRegs x := by
  refine List.ext_getElem (by rw [State.firstRegs_length, State.firstRegs_length]) fun k hk hk' => ?_
  have hkx : k < x.val + 1 := by rwa [State.firstRegs_length] at hk
  simpa [State.firstRegs] using h.regs ⟨k, by omega⟩ (mem_regsUpTo.2 (Nat.le_of_lt_succ hkx))

/-- A block load writes the same bytes of memory in both runs and leaves the registers above. -/
theorem SameCore.loadedRegs (h : SameCore s s') (x : Reg) :
    SameWrites s s' { s with V := s.loadedRegs x s.I.toNat } { s' with V := s'.loadedRegs x s'.I.toNat } := by
  obtain ⟨v, st, keys, r, rfl⟩ := h.exists_eq
  refine ⟨rfl, fun q => ?_, .inr ⟨rfl, rfl⟩, ⟨rfl, rfl⟩, rfl, rfl⟩
  by_cases hq : q ≤ x
  · exact .inl (by simp [State.loadedRegs, hq])
  · exact .inr ⟨State.getElem_loadedRegs_of_not_le _ hq _, s.getElem_loadedRegs_of_not_le hq _⟩

/-- With the same random byte given or left open, both runs use up the same. -/
theorem AgreeOnReads.drawRandom {x : Reg} {kk : Byte} (h : AgreeOnReads (.rnd x kk) s s') :
    SameWrites s s' s.drawRandom s'.drawRandom ∧ s'.randomByte = s.randomByte := by
  have hr := h.random ⟨x, kk, rfl⟩
  obtain ⟨v, st, keys, r, rfl⟩ := h.core.exists_eq
  cases hr
  exact ⟨⟨rfl, fun _ => .inr ⟨rfl, rfl⟩, .inr ⟨rfl, rfl⟩, ⟨rfl, rfl⟩, rfl, rfl⟩, rfl⟩

/-- An instruction's outcome depends on what it reads only. -/
theorem exec_sameOutcome (h : AgreeOnReads i s s') : SameOutcome s s' (exec i s) (exec i s') := by
  have hw := h.core.refl_writes
  cases i with
  | seImm x kk | sneImm x kk => exact hw.skipIf (by rw [h.getV (by simp [regReads])])
  | seReg x y | sneReg x y =>
    exact hw.skipIf (by rw [h.getV (x := x) (by simp [regReads]), h.getV (x := y) (by simp [regReads])])
  | skp x | sknp x =>
    exact hw.skipIf (by rw [h.getV (by simp [regReads]), State.keyDown, h.keys ⟨x, by simp⟩, State.keyDown])
  | ldImm x kk => exact hw.finishReg x rfl
  | addImm x kk => exact hw.finishReg x (by rw [h.getV (by simp [regReads])])
  | ldReg x y => exact hw.finishReg x (h.getV (by simp [regReads]))
  | or x y | and x y | xor x y =>
    exact hw.finishReg x (by rw [h.getV (x := x) (by simp [regReads]), h.getV (x := y) (by simp [regReads])])
  | addReg x y | sub x y | subn x y =>
    have hx := h.getV (x := x) (by simp [regReads])
    have hy := h.getV (x := y) (by simp [regReads])
    exact hw.finishRegFlag x (by rw [hx, hy]) (by rw [hx, hy])
  | shr x y | shl x y =>
    have hx := h.getV (x := x) (by simp [regReads])
    exact hw.finishRegFlag x (by rw [hx]) (by rw [hx])
  | rnd x kk =>
    obtain ⟨hdraw, hbyte⟩ := h.drawRandom
    exact hdraw.finishReg x (by rw [hbyte])
  | ldVxDt x => exact hw.finishReg x (by rw [h.core])
  | ldVxK x =>
    simp only [exec, execLdVxK, h.lowestKey ⟨x, .inr (.inr rfl)⟩]
    split
    · exact .next (hw.map State.suspend)
    · exact hw.finishReg x rfl
  | cls => exact .next (hw.map (fun t => { t with FB := Vector.replicate 32 0 }.advance))
  | jp nnn => exact .next (hw.map (·.goto (addressOf nnn)))
  | jpV0 nnn =>
    simp only [exec, execJpV0, h.getV (x := 0) (by simp [regReads])]
    exact .next (hw.map (·.goto _))
  | ret => exact h.core.ret
  | call nnn => exact h.core.call nnn
  | ldI nnn => exact .next (hw.map (fun t => { t with I := addressOf nnn }.advance))
  | addI x =>
    have hI : s'.I = s.I := by rw [h.core]
    have hx := h.getV (x := x) (by simp [regReads])
    simp only [exec, execAddI, hI, hx]
    exact .next (((hw.map (fun t => { t with I := s.I + (s.getV x).setWidth 16 })).setV
      VF _).map State.advance)
  | ldF x =>
    simp only [exec, execLdF, h.getV (x := x) (by simp [regReads])]
    exact .next (hw.map (fun t => { t with I := BitVec.ofNat 16 ((s.getV x).toNat * 5) }.advance))
  | ldDtVx x =>
    simp only [exec, execLdDtVx, h.getV (x := x) (by simp [regReads])]
    exact .next (hw.map (fun t => { t with DT := s.getV x }.advance))
  | ldStVx x =>
    simp only [exec, execLdStVx, h.getV (x := x) (by simp [regReads])]
    exact .next ((hw.setST _).map State.advance)
  | drw x y n =>
    rw [exec_drw, exec_drw, h.drawn]
    exact h.core.withData _ _ (((hw.map (fun t => { t with FB := (s.drawn x y n).1 })).setV VF _).map State.advance)
  | ldB x =>
    have hx : s'.V[x] = s.V[x] := h.regs x (by simp [regReads])
    rw [exec_ldB, exec_ldB, hx]
    exact h.core.withData _ _ (hw.map (fun t => (t.storeAtI _).advance))
  | stRegs x =>
    rw [exec_stRegs, exec_stRegs, h.firstRegs]
    exact h.core.withData _ _
      (hw.map (fun t => ((t.storeAtI _).advanceI (x.val + 1)).advance))
  | ldRegs x =>
    rw [exec_ldRegs, exec_ldRegs]
    exact h.core.withData _ _
      ((h.core.loadedRegs x).map (fun t => (t.advanceI (x.val + 1)).advance))
  | unk op => exact .next (hw.map (·.advanceUnknown op))

/-! ### What follows from two runs alike -/

theorem SameOutcome.of_fault {o : Result} {f : Fault} (h : SameOutcome s s' (.fault f) o) : o = .fault f := by
  cases h; rfl

theorem SameOutcome.of_next {o : Result} {t : State} (h : SameOutcome s s' (.next t) o) :
    ∃ t', o = .next t' ∧ SameWrites s s' t t' := by
  cases h with
  | next h => exact ⟨_, rfl, h⟩

/-- The two runs of `exec_sameOutcome`, by how the first one ends. -/
theorem AgreeOnReads.exec_fault {f : Fault} (h : AgreeOnReads i s s') (hx : exec i s = .fault f) :
    exec i s' = .fault f := (hx ▸ exec_sameOutcome h).of_fault

theorem AgreeOnReads.exec_next {t : State} (h : AgreeOnReads i s s') (hx : exec i s = .next t) :
    ∃ t', exec i s' = .next t' ∧ SameWrites s s' t t' := (hx ▸ exec_sameOutcome h).of_next

end

section
variable {s s' t t' : State}

theorem SameWrites.V_eq (h : SameWrites s s' t t') (hV : s'.V = s.V) : t'.V = t.V := by
  apply Vector.ext
  intro q hq
  rcases h.regs ⟨q, hq⟩ with heq | ⟨h1, h2⟩
  · exact heq
  · exact (h1.trans (by rw [hV])).trans h2.symm

theorem SameWrites.ST_eq (h : SameWrites s s' t t') (hST : s'.ST = s.ST) : t'.ST = t.ST := by
  rcases h.sound with heq | ⟨h1, h2⟩
  · exact heq
  · rw [h1, h2, hST]

theorem SameWrites.K_eq (h : SameWrites s s' t t') (hK : s'.K = s.K) : t'.K = t.K := by
  rw [h.keys.1, h.keys.2, hK]

theorem SameWrites.rnd_eq (h : SameWrites s s' t t') (hr : s'.rnd = s.rnd) : t'.rnd = t.rnd := by
  rw [h.random.1, h.random.2, hr]

end

/-- Settles O16: with another value in a register it does not read, the instruction writes the same. -/
theorem registersInfluenceOnlyAsTabulated : Obligations.RegistersInfluenceOnlyAsTabulated := by
  unfold Obligations.RegistersInfluenceOnlyAsTabulated
  intro i s r b hr
  have hagree : AgreeOnReads i s (s.setV r b) :=
    ⟨rfl, fun q hq => s.getElem_setV_of_ne (ne_of_mem_of_not_mem hq hr) b, fun _ => rfl, fun _ => rfl⟩
  refine ⟨fun f => hagree.exec_fault, fun t ht => ?_⟩
  obtain ⟨t', ht', hw⟩ := hagree.exec_next ht
  have hrest : t' = { t with V := t'.V } :=
    Eq.trans hw.core (by rw [hw.ST_eq rfl, hw.K_eq rfl, hw.rnd_eq rfl])
  refine ⟨t', ht', hrest, fun q hq => ?other, ?self⟩
  case other =>
    rcases hw.regs q with heq | ⟨h1, h2⟩
    · exact heq
    · rw [h1, h2, s.getElem_setV_of_ne hq]
  case self =>
    exact (hw.regs r).imp_right fun ⟨h1, h2⟩ => ⟨h1.trans (by simp), h2⟩

/-- Settles O19: with another value in the sound timer every instruction writes the same. -/
theorem noInstructionReadsTheSoundTimer : Obligations.NoInstructionReadsTheSoundTimer := by
  unfold Obligations.NoInstructionReadsTheSoundTimer
  intro i s b
  have hagree : AgreeOnReads i s { s with ST := b } := ⟨rfl, fun _ _ => rfl, fun _ => rfl, fun _ => rfl⟩
  refine ⟨fun f => hagree.exec_fault, fun t ht => ?_⟩
  obtain ⟨t', ht', hw⟩ := hagree.exec_next ht
  exact ⟨t', ht', Eq.trans hw.core (by rw [hw.V_eq rfl, hw.K_eq rfl, hw.rnd_eq rfl])⟩

/-- Settles O20: with another value in an input it does not read, the instruction writes the same, and
none writes an input. -/
theorem inputsAreReadOnlyByTheirInstructions : Obligations.InputsAreReadOnlyByTheirInstructions := by
  unfold Obligations.InputsAreReadOnlyByTheirInstructions
  refine fun i s t ht => ⟨fun keys hi => ?keys, fun r hi => ?random⟩
  case keys =>
    have hno : ¬ readsKeys i := fun ⟨x, hx⟩ => by simp [hi x] at hx
    have hagree : AgreeOnReads i s { s with K := keys } :=
      ⟨rfl, fun _ _ => rfl, fun h => absurd h hno, fun _ => rfl⟩
    obtain ⟨t', ht', hw⟩ := hagree.exec_next ht
    rw [ht', hw.core, hw.V_eq rfl, hw.ST_eq rfl, hw.keys.1, hw.rnd_eq rfl]
  case random =>
    have hno : ¬ readsRandom i := fun ⟨x, kk, hx⟩ => hi x kk hx
    have hagree : AgreeOnReads i s { s with rnd := r } :=
      ⟨rfl, fun _ _ => rfl, fun _ => rfl, fun h => absurd h hno⟩
    obtain ⟨t', ht', hw⟩ := hagree.exec_next ht
    rw [ht', hw.core, hw.V_eq rfl, hw.ST_eq rfl, hw.K_eq rfl, hw.random.1]

end Sys2Proof.Machine

namespace Sys2Proof.Machine

/-! PROOFS. The statements of 20_memory.

## The faults of an instruction (20_memory R44, R50; 60_exceptions R162, R163)

The counterpart of `Completion`: every way in which an instruction ends in a fault, with its guard. None
of them is the fetch fault. -/

/-- The number of bytes from I that the instruction accesses. -/
def dataLength : Instr → Nat
  | .drw _ _ n => n.toNat
  | .ldB _ => 3
  | .stRegs x | .ldRegs x => x.val + 1
  | _ => 0

/-- The instruction `i`, started in `s`, ends in the fault `f`. -/
inductive Raises (s : State) : Instr → Fault → Prop
  | data i (h : dataLength i ≠ 0 ∧ 0x1000 < s.I.toNat + dataLength i) :
      Raises s i (.memoryData s.pc (encode i) (if s.I.toNat < 0x1000 then 0x1000 else s.I.toNat))
  | overflow nnn (h : s.sp.val = 16) :
      Raises s (.call nnn) (.stackOverflow s.pc (encode (.call nnn)) s.sp)
  | underflow (h : s.sp.val = 0) : Raises s .ret (.stackUnderflow s.pc 0x00EE s.sp)

/-- A checked access of an instruction's data faults only as `Raises.data` says. -/
theorem raises_of_withData {i : Instr} {s u : State} {f : Fault}
    (h : withData s i (dataLength i) (.next u) = .fault f) : Raises s i f := by
  rcases withData_cases s i (dataLength i) u with ⟨-, hx⟩ | ⟨hout, hx⟩ <;> rw [hx] at h <;> cases h
  exact .data i hout

/-- An instruction that answers a fault raises it in one of the listed ways. -/
theorem raises_of_exec {i : Instr} {s : State} {f : Fault} (h : exec i s = .fault f) : Raises s i f := by
  cases i with
  | ret =>
    rcases exec_ret_cases s with ⟨hsp, hx⟩ | ⟨_, hx⟩ <;> rw [hx] at h <;> cases h
    exact .underflow hsp
  | call nnn =>
    rcases exec_call_cases nnn s with ⟨hsp, hx⟩ | ⟨_, hx⟩ <;> rw [hx] at h <;> cases h
    exact .overflow nnn hsp
  | ldVxK x => rcases exec_ldVxK_cases x s with ⟨-, hx⟩ | ⟨k, -, -, hx⟩ <;> rw [hx] at h <;> cases h
  | drw x y n => exact raises_of_withData (exec_drw x y n s ▸ h)
  | ldB x => exact raises_of_withData (exec_ldB x s ▸ h)
  | stRegs x => exact raises_of_withData (exec_stRegs x s ▸ h)
  | ldRegs x => exact raises_of_withData (exec_ldRegs x s ▸ h)
  | _ => cases h

theorem exec_ne_memoryFetch (i : Instr) (s : State) (p : Word) (a : Nat) :
    exec i s ≠ .fault (.memoryFetch p a) := fun h => nomatch raises_of_exec h

/-! ## The fetch (20_memory R45) -/

/-- A cycle ends in a fetch fault exactly when the fetch fails: no instruction raises that fault. -/
theorem cycle_eq_memoryFetch_iff (s : State) (p : Word) (a : Nat) :
    cycle s = .fault (.memoryFetch p a) ↔ p = s.pc ∧ s.fetch = .error a := by
  rcases hf : s.fetch with b | op
  · simp [cycle_of_fetch_error hf, eq_comm]
  · simp [cycle_of_fetch hf, exec_ne_memoryFetch]

/-- Settles O8: by what the fetch answers below 0xFFF and from there on, and what a cycle makes of it. -/
theorem fetchIsBigEndianAndFaultsExactlyPastMemory :
    Obligations.FetchIsBigEndianAndFaultsExactlyPastMemory := by
  unfold Obligations.FetchIsBigEndianAndFaultsExactlyPastMemory
  refine fun s => ⟨fun hpc => ?inside, ?past⟩
  case inside =>
    have hf := (s.fetch_ok_iff _).2 ⟨hpc, rfl⟩
    exact ⟨_, hf, bytesToWord_toNat _ _, cycle_of_fetch hf⟩
  case past => simp [cycle_eq_memoryFetch_iff, State.fetch_error_iff]

/-! ## A store over the next instruction (20_memory R46, R55; 43_index_memory R124) -/

theorem State.firstRegs_getD (s : State) {x r : Reg} (hr : r ≤ x) (b : Byte) :
    (s.firstRegs x).getD r.val b = s.V[r] := by
  have hlen : r.val < (s.firstRegs x).length := by rw [State.firstRegs_length]; exact Nat.lt_succ_of_le hr
  rw [List.getD_eq_getElem _ _ hlen]
  simp [State.firstRegs]

/-- After V0..Vx are stored from I, the byte at I + r is V[r]. -/
theorem State.read_storeAtI_firstRegs {s : State} {x r : Reg} (hwf : s.M.wf = true)
    (hx : s.I.toNat + x.val ≤ 0xFFF) (hr : r ≤ x) :
    (s.storeAtI (s.firstRegs x)).M.read (s.I.toNat + r.val) = s.V[r] := by
  have hfit : s.I.toNat + (s.firstRegs x).length ≤ Config.memSize := by
    rw [State.firstRegs_length]; exact Nat.succ_le_succ hx
  have hin : s.I.toNat ≤ s.I.toNat + r.val ∧
      s.I.toNat + r.val < s.I.toNat + (s.firstRegs x).length := by
    rw [State.firstRegs_length]
    exact ⟨Nat.le_add_right _ _, Nat.add_lt_add_left (Nat.lt_succ_of_le hr) _⟩
  rw [State.storeAtI_M, Memory.read_writeBytes hwf hfit, if_pos hin, Nat.add_sub_cancel_left,
    s.firstRegs_getD hr]

/-- Settles O44: the store leaves pc at I, where the first two stored bytes are V0 and V1. -/
theorem aStoredInstructionIsFetchedNext : Obligations.AStoredInstructionIsFetchedNext := by
  unfold Obligations.AStoredInstructionIsFetchedNext
  intro x s hwf hx hI hfit
  have hV0 := State.read_storeAtI_firstRegs (r := 0) hwf hfit (Fin.zero_le x)
  have hV1 := State.read_storeAtI_firstRegs (r := 1) hwf hfit hx
  refine ⟨((s.storeAtI (s.firstRegs x)).advanceI (x.val + 1)).advance, ?completes, ?fetched⟩
  case completes => rw [exec_stRegs, withData_ok _ _ _ _ (by omega)]
  case fetched =>
    have hpc : (((s.storeAtI (s.firstRegs x)).advanceI (x.val + 1)).advance).pc = s.I := hI.symm
    rw [State.fetch_ok_iff, hpc]
    exact ⟨by omega, by rw [← hV0, ← hV1]; rfl⟩

end Sys2Proof.Machine

namespace Sys2Proof

/-! PROOFS. The statements of 30_encoding.

A word is rebuilt from its fields (R61, R62), so every decoded word encodes to itself and the masks of
R65 select fields. The table of R68 then holds of the decoder and of the match/mask table alike, which
gives the two round trips. -/

/-! ## A word is made of its fields (30_encoding R61, R62) -/

theorem wordNNN_of_fieldG {op : Word} {g : Nibble} (hg : (fieldG op).toNat = g.toNat) :
    wordNNN g (fieldNNN op) = op := by
  rw [fieldG_toNat] at hg
  apply BitVec.eq_of_toNat_eq
  rw [wordNNN_toNat, fieldNNN_toNat]
  omega

theorem wordXKK_of_fieldG {op : Word} {g : Nibble} (hg : (fieldG op).toNat = g.toNat) :
    wordXKK g (fieldX op) (fieldKK op) = op := by
  rw [fieldG_toNat] at hg
  apply BitVec.eq_of_toNat_eq
  rw [wordXKK_toNat, fieldX_val, fieldKK_toNat]
  omega

theorem wordXYN_of_fieldG {op : Word} {g : Nibble} (hg : (fieldG op).toNat = g.toNat) :
    wordXYN g (fieldX op) (fieldY op) (fieldN op) = op := by
  rw [fieldG_toNat] at hg
  apply BitVec.eq_of_toNat_eq
  rw [wordXYN_toNat, fieldX_val, fieldY_val, fieldN_toNat]
  omega

/-- Format XSS: the low byte is the selector `kk`. -/
theorem wordXKK_of_fieldKK {op : Word} {g : Nibble} {kk : Byte} (hg : (fieldG op).toNat = g.toNat)
    (hkk : (fieldKK op).toNat = kk.toNat) : wordXKK g (fieldX op) kk = op := by
  rw [← BitVec.eq_of_toNat_eq hkk, wordXKK_of_fieldG hg]

/-- Format XYS: the low nibble is the selector `n`. -/
theorem wordXYN_of_fieldN {op : Word} {g n : Nibble} (hg : (fieldG op).toNat = g.toNat)
    (hn : (fieldN op).toNat = n.toNat) : wordXYN g (fieldX op) (fieldY op) n = op := by
  rw [← BitVec.eq_of_toNat_eq hn, wordXYN_of_fieldG hg]

/-! ## Every decoded word encodes to itself (30_encoding R67, R69) -/

theorem encode_decodeGroup0 (op : Word) : encode (decodeGroup0 op) = op := by
  unfold decodeGroup0
  split
  · next h => exact h.symm
  · split
    · next h => exact h.symm
    · rfl

theorem encode_decodeGroup8 {op : Word} (hg : (fieldG op).toNat = 0x8) : encode (decodeGroup8 op) = op := by
  unfold decodeGroup8
  split
  case h_10 => rfl
  all_goals next hn => exact wordXYN_of_fieldN hg hn

theorem encode_decodeGroupE {op : Word} (hg : (fieldG op).toNat = 0xE) : encode (decodeGroupE op) = op := by
  unfold decodeGroupE
  split
  case h_3 => rfl
  all_goals next hkk => exact wordXKK_of_fieldKK hg hkk

theorem encode_decodeGroupF {op : Word} (hg : (fieldG op).toNat = 0xF) : encode (decodeGroupF op) = op := by
  unfold decodeGroupF
  split
  case h_10 => rfl
  all_goals next hkk => exact wordXKK_of_fieldKK hg hkk

theorem encode_decodeWord (op : Word) : encode (decodeWord op) = op := by
  unfold decodeWord
  split
  case h_1 => exact encode_decodeGroup0 op
  case h_9 hg => exact encode_decodeGroup8 hg
  case h_15 hg => exact encode_decodeGroupE hg
  case h_16 => exact encode_decodeGroupF (by simp only [imp_false] at *; omega)
  case h_2 hg | h_3 hg | h_11 hg | h_12 hg => exact wordNNN_of_fieldG hg
  case h_4 hg | h_5 hg | h_7 hg | h_8 hg | h_13 hg => exact wordXKK_of_fieldG hg
  case h_14 hg => exact wordXYN_of_fieldG hg
  case h_6 hg | h_10 hg =>
    split
    · next hn => exact wordXYN_of_fieldN hg (congrArg _ hn)
    · rfl

/-! ## The words the decoder does not recognize (30_encoding R66, R68) -/

/-- The words that R68 lists as unrecognized, group by group. -/
def UnrecognizedByGroup (op : Word) : Prop :=
  let g := op.toNat / 4096
  let n := op.toNat % 16
  let kk := op.toNat % 256
  (g = 0x0 ∧ op.toNat ≠ 0x00E0 ∧ op.toNat ≠ 0x00EE) ∨
  (g = 0x5 ∧ n ≠ 0) ∨
  (g = 0x8 ∧ n ∈ [0x8, 0x9, 0xA, 0xB, 0xC, 0xD, 0xF]) ∨
  (g = 0x9 ∧ n ≠ 0) ∨
  (g = 0xE ∧ kk ∉ [0x9E, 0xA1]) ∨
  (g = 0xF ∧ kk ∉ [0x07, 0x0A, 0x15, 0x18, 0x1E, 0x29, 0x33, 0x55, 0x65])

theorem decodeGroup0_eq_unk_iff (op : Word) :
    decodeGroup0 op = .unk op ↔ op.toNat ≠ 0x00E0 ∧ op.toNat ≠ 0x00EE := by
  unfold decodeGroup0
  split
  · next hcls => simp [hcls]
  · split
    · next hret => simp [hret]
    · next hcls hret =>
      exact iff_of_true rfl ⟨(hcls <| BitVec.eq_of_toNat_eq ·), (hret <| BitVec.eq_of_toNat_eq ·)⟩

theorem decodeGroup8_eq_unk_iff (op : Word) :
    decodeGroup8 op = .unk op ↔ op.toNat % 16 ∈ [0x8, 0x9, 0xA, 0xB, 0xC, 0xD, 0xF] := by
  rw [← fieldN_toNat]
  unfold decodeGroup8
  split
  case h_10 => simp only [imp_false, List.mem_cons, List.not_mem_nil, true_iff] at *; omega
  all_goals next hn => simp [hn]

theorem decodeGroupE_eq_unk_iff (op : Word) :
    decodeGroupE op = .unk op ↔ op.toNat % 256 ∉ [0x9E, 0xA1] := by
  rw [← fieldKK_toNat]
  unfold decodeGroupE
  split
  case h_3 => simp_all
  all_goals next hkk => simp [hkk]

theorem decodeGroupF_eq_unk_iff (op : Word) :
    decodeGroupF op = .unk op ↔
      op.toNat % 256 ∉ [0x07, 0x0A, 0x15, 0x18, 0x1E, 0x29, 0x33, 0x55, 0x65] := by
  rw [← fieldKK_toNat]
  unfold decodeGroupF
  split
  case h_10 => simp_all
  all_goals next hkk => simp [hkk]

theorem fieldN_eq_zero_iff (op : Word) : fieldN op = 0 ↔ op.toNat % 16 = 0 := by
  rw [← fieldN_toNat, ← BitVec.toNat_inj]
  rfl

theorem decodeWord_eq_unk_iff (op : Word) : decodeWord op = .unk op ↔ UnrecognizedByGroup op := by
  unfold decodeWord UnrecognizedByGroup
  simp only [← decodeGroup0_eq_unk_iff, ← decodeGroup8_eq_unk_iff, ← decodeGroupE_eq_unk_iff,
    ← decodeGroupF_eq_unk_iff, ← fieldG_toNat, ← fieldN_eq_zero_iff, Ne]
  split
  case h_16 =>
    have hg : (fieldG op).toNat = 15 := by simp only [imp_false] at *; omega
    simp [hg]
  all_goals next hg => simp [hg]

/-! ## Words under the masks of the opcode map (30_encoding R65, R66)

The four masks keep the group and, of the low byte, nothing, the low nibble or everything; the last one
keeps the whole word. -/

theorem wordXKK_and_mask (g : Nibble) (x : Reg) (kk m : Byte) :
    wordXKK g x kk &&& wordXKK 0xF 0 m = wordXKK g 0 (kk &&& m) := by
  have hg : g &&& 0xF#4 = g := BitVec.and_allOnes
  have hx : regField x &&& regField 0 = regField 0 := BitVec.and_zero
  have hlow : (regField x ++ kk : BitVec (4 + 8)) &&& (regField 0 ++ m) = regField 0 ++ (kk &&& m) := by
    rw [BitVec.and_append, hx]
  have h : (g ++ (regField x ++ kk : BitVec (4 + 8)) : BitVec (4 + 12)) &&& (0xF#4 ++ (regField 0 ++ m)) =
      g ++ (regField 0 ++ (kk &&& m) : BitVec (4 + 8)) := by
    rw [BitVec.and_append, hg, hlow]
  exact h

/-- A word matches `p` under a mask of R65 when the groups and the low bits that the mask keeps do. -/
theorem and_mask_eq_iff (op p : Word) (m : Byte) :
    op &&& wordXKK 0xF 0 m = p ↔
      op.toNat / 4096 = p.toNat / 4096 ∧ (fieldKK op &&& m).toNat = p.toNat % 4096 := by
  have hword : op &&& wordXKK 0xF 0 m = wordXKK (fieldG op) 0 (fieldKK op &&& m) := by
    rw [← wordXKK_and_mask _ (fieldX op), wordXKK_of_fieldG rfl]
  have hlow := (fieldKK op &&& m).isLt
  rw [hword, ← BitVec.toNat_inj, wordXKK_toNat, fieldG_toNat, Fin.val_zero]
  omega

theorem and_0xF000_eq_iff (op p : Word) :
    op &&& 0xF000#16 = p ↔ op.toNat / 4096 = p.toNat / 4096 ∧ 0 = p.toNat % 4096 := by
  have hzero : (fieldKK op &&& 0#8).toNat = 0 := congrArg BitVec.toNat BitVec.and_zero
  exact hzero ▸ and_mask_eq_iff op p 0x00

theorem and_0xF00F_eq_iff (op p : Word) :
    op &&& 0xF00F#16 = p ↔ op.toNat / 4096 = p.toNat / 4096 ∧ op.toNat % 16 = p.toNat % 4096 := by
  have hn : (fieldKK op &&& 0x0F#8).toNat = op.toNat % 16 := by
    rw [BitVec.toNat_and, fieldKK_toNat]
    exact (Nat.and_two_pow_sub_one_eq_mod _ 4).trans (by omega)
  exact hn ▸ and_mask_eq_iff op p 0x0F

theorem and_0xF0FF_eq_iff (op p : Word) :
    op &&& 0xF0FF#16 = p ↔ op.toNat / 4096 = p.toNat / 4096 ∧ op.toNat % 256 = p.toNat % 4096 := by
  have hkk : fieldKK op &&& 0xFF#8 = fieldKK op := BitVec.and_allOnes
  rw [← fieldKK_toNat, ← hkk]
  exact and_mask_eq_iff op p 0xFF

theorem and_0xFFFF_eq_iff (op p : Word) :
    op &&& 0xFFFF#16 = p ↔ op.toNat / 4096 = p.toNat / 4096 ∧ op.toNat % 4096 = p.toNat % 4096 := by
  have hop : op &&& 0xFFFF#16 = op := BitVec.and_allOnes
  rw [hop, ← BitVec.toNat_inj]
  omega

/-- The rows of R65 written in fields, and compared with the table of R68 group by group. -/
theorem recognized_eq_false_iff (op : Word) : recognized op = false ↔ UnrecognizedByGroup op := by
  have hgroup : op.toNat / 4096 < 16 := by omega
  simp only [recognized, opcodeTable, opcodeTableLow, opcodeTableHigh, List.cons_append, List.nil_append,
    List.any_cons, List.any_nil, OpcodeRow.accepts, Bool.or_eq_false_iff, beq_eq_false_iff_ne, Ne,
    and_0xF000_eq_iff, and_0xF00F_eq_iff, and_0xF0FF_eq_iff, and_0xFFFF_eq_iff, UnrecognizedByGroup,
    BitVec.toNat_ofNat, Nat.reducePow, Nat.reduceMod, Nat.reduceDiv, and_true]
  interval_cases hg : op.toNat / 4096
  all_goals simp
  -- Left are group 0, matched on whole words, and group 8, where R68 lists the complement of the rows.
  · omega
  · omega

/-- Settles O4: the decoder and the match/mask table are each held against the groups of the table. -/
theorem unrecognizedWordsAreThoseOfTheTable : Obligations.UnrecognizedWordsAreThoseOfTheTable := by
  unfold Obligations.UnrecognizedWordsAreThoseOfTheTable
  exact fun op => ⟨decodeWord_eq_unk_iff op, recognized_eq_false_iff op⟩

theorem wellFormed_unk_iff (op : Word) : (Instr.unk op).wellFormed = true ↔ decodeWord op = .unk op := by
  rw [decodeWord_eq_unk_iff, ← recognized_eq_false_iff]
  simp [Instr.wellFormed]

/-! ## The rows are disjoint (30_encoding R66) -/

/-- No word can match both rows: they ask for different values of a bit that both masks keep. -/
abbrev OpcodeRow.Disagree (r r' : OpcodeRow) : Prop := r.pattern &&& r'.mask ≠ r'.pattern &&& r.mask

theorem opcodeTable_pairwise_disagree : opcodeTable.Pairwise OpcodeRow.Disagree := by decide

theorem OpcodeRow.not_disagree {r r' : OpcodeRow} {op : Word} (h : r.accepts op = true)
    (h' : r'.accepts op = true) : ¬ r.Disagree r' := by
  simp only [OpcodeRow.accepts, beq_iff_eq] at h h'
  rw [Disagree, ← h, ← h', BitVec.and_assoc, BitVec.and_assoc, BitVec.and_comm r.mask, not_not]

/-- Settles O3: two rows that one word matches agree on the bits that both masks keep, and no two rows of
the table do. -/
theorem noWordMatchesTwoOpcodeRows : Obligations.NoWordMatchesTwoOpcodeRows := by
  unfold Obligations.NoWordMatchesTwoOpcodeRows
  intro op r r' hr hr' h h'
  by_contra hne
  have hsymm : Std.Symm OpcodeRow.Disagree := ⟨fun _ _ => Ne.symm⟩
  exact OpcodeRow.not_disagree h h' (opcodeTable_pairwise_disagree.forall hr hr' hne)

/-! ## The round trips (30_encoding R60, R67, R69) -/

theorem wellFormed_decodeWord (op : Word) : (decodeWord op).wellFormed = true := by
  cases hi : decodeWord op with
  | unk w =>
    have hw : w = op := by rw [← encode_decodeWord op, hi, encode]
    exact (wellFormed_unk_iff w).2 (hw ▸ hi)
  | _ => rfl

/-- Settles O2: an unrecognized word decodes to itself, and every other instruction is well-formed. -/
theorem encodingADecodedWordGivesItBack : Obligations.EncodingADecodedWordGivesItBack := by
  unfold Obligations.EncodingADecodedWordGivesItBack
  exact fun op => ⟨wellFormed_decodeWord op, encode_decodeWord op⟩

/-- The fields of the encoder's word are the operands; its group and its selector are the decoder's. -/
theorem decodeWord_encode {i : Instr} (h : i.wellFormed = true) : decodeWord (encode i) = i := by
  cases i with
  | unk op => exact (wellFormed_unk_iff op).1 h
  | cls | ret => rfl
  | ldReg | or | and | xor | addReg | sub | shr | subn | shl => simp [encode, decodeWord, decodeGroup8]
  | skp | sknp => simp [encode, decodeWord, decodeGroupE]
  | ldVxDt | ldVxK | ldDtVx | ldStVx | addI | ldF | ldB | stRegs | ldRegs =>
    simp [encode, decodeWord, decodeGroupF]
  | _ => simp [encode, decodeWord]

theorem decode_encodeBytes_append (i : Instr) (rest : List Byte) :
    decode (encodeBytes i ++ rest) = .ok (decodeWord (encode i), rest) := by
  simp [encodeBytes, decode]

/-- Settles O1: the decoder puts the two bytes together again and reads the word's instruction. -/
theorem decodingAnEncodedInstructionGivesItBack : Obligations.DecodingAnEncodedInstructionGivesItBack := by
  unfold Obligations.DecodingAnEncodedInstructionGivesItBack
  intro i rest h
  rw [decode_encodeBytes_append, decodeWord_encode h]

/-- Settles O5: sixteen closed words, each decoded by evaluation. -/
theorem wordsOfTheSpecDecode : Obligations.WordsOfTheSpecDecode := by
  unfold Obligations.WordsOfTheSpecDecode
  decide

end Sys2Proof

namespace Sys2Proof.Machine

/-! PROOFS. The statements of 40_control_transfer.

Call and Return are each one equation per guard on the stack pointer; a Call followed by a Return is then
the one statement after the other. A finished program is a fixed point of every transition but a Reset. -/

/-! ## Call and Return by their guard (40_control_transfer R80, R82) -/

theorem exec_call_of_free {s : State} (nnn : Imm12) (h : s.sp.val < 16) : exec (.call nnn) s = .next
    (({ s with S := s.S.set s.sp.val s.pc, sp := ⟨s.sp.val + 1, by omega⟩ } : State).goto (addressOf nnn)) := by
  rcases exec_call_cases nnn s with ⟨hfull, -⟩ | ⟨_, hx⟩
  · omega
  · exact hx

theorem exec_call_of_full {s : State} (nnn : Imm12) (h : s.sp.val = 16) :
    exec (.call nnn) s = .fault (.stackOverflow s.pc (encode (.call nnn)) s.sp) := by
  rcases exec_call_cases nnn s with ⟨-, hx⟩ | ⟨hfree, -⟩
  · exact hx
  · omega

theorem exec_ret_of_used {s : State} (h : 0 < s.sp.val) : exec .ret s = .next
    (({ s with sp := ⟨s.sp.val - 1, by omega⟩ } : State).goto (s.S[s.sp.val - 1]'(by omega) + 2)) := by
  rcases exec_ret_cases s with ⟨hempty, -⟩ | ⟨_, hx⟩
  · omega
  · exact hx

theorem exec_ret_of_empty {s : State} (h : s.sp.val = 0) :
    exec .ret s = .fault (.stackUnderflow s.pc 0x00EE s.sp) := by
  rcases exec_ret_cases s with ⟨-, hx⟩ | ⟨hused, -⟩
  · exact hx
  · omega

/-- The 12-bit address is zero-extended (30_encoding R63). -/
theorem addressOf_toNat (nnn : Imm12) : (addressOf nnn).toNat = nnn.toNat :=
  BitVec.toNat_setWidth_of_le (by decide)

/-- Settles O30: the slot written is the one sp names, so every other slot keeps its entry. -/
theorem callPushesItsOwnAddress : Obligations.CallPushesItsOwnAddress := by
  unfold Obligations.CallPushesItsOwnAddress
  refine fun nnn s => ⟨fun j hj => ?free, exec_call_of_full nnn⟩
  refine ⟨_, exec_call_of_free nnn (hj ▸ j.isLt), ?own, fun k hk => ?other, congrArg (· + 1) hj, ?target, rfl⟩
  case own => simp [hj]
  case other =>
    have hne : s.sp.val ≠ k.val := fun h => hk (Fin.ext (h.symm.trans hj))
    simp [Vector.getElem_set_ne _ _ hne]
  case target => exact addressOf_toNat nnn

/-- Settles O31: the entry popped is the one below sp. -/
theorem returnPopsTheNewestEntry : Obligations.ReturnPopsTheNewestEntry := by
  unfold Obligations.ReturnPopsTheNewestEntry
  refine fun s => ⟨fun j hj => ?used, exec_ret_of_empty⟩
  refine ⟨_, exec_ret_of_used (hj ▸ Nat.succ_pos j.val), ?entry, ?pointer, rfl⟩
  case entry => simp [hj]
  case pointer => simp [hj]

/-- Settles O53: of the two cases of each instruction, the one that completes is the one with room. -/
theorem callAndReturnCompleteExactlyWithRoomOnTheStack :
    Obligations.CallAndReturnCompleteExactlyWithRoomOnTheStack := by
  unfold Obligations.CallAndReturnCompleteExactlyWithRoomOnTheStack
  refine fun nnn s => ⟨?call, ?ret⟩
  case call => rcases exec_call_cases nnn s with ⟨hsp, hx⟩ | ⟨hsp, hx⟩ <;> simp [hsp, hx]
  case ret => rcases exec_ret_cases s with ⟨hsp, hx⟩ | ⟨hsp, hx⟩ <;> simp [hsp, hx]

/-- Settles O32: the Return pops the slot that the Call filled, and neither touches the slots below it. -/
theorem callThenReturnResumesAfterTheCall : Obligations.CallThenReturnResumesAfterTheCall := by
  unfold Obligations.CallThenReturnResumesAfterTheCall
  intro nnn s hsp
  obtain ⟨t, hcall, hown, hother, htsp, -⟩ := (callPushesItsOwnAddress nnn s).1 ⟨s.sp.val, hsp⟩ rfl
  refine ⟨t, hcall, fun u huS husp => ?_⟩
  obtain ⟨v, hret, hpc, hvsp, hv⟩ := (returnPopsTheNewestEntry u).1 ⟨s.sp.val, hsp⟩ (husp ▸ htsp)
  have hvS : v.S = t.S := (congrArg State.S hv).trans huS
  refine ⟨v, hret, ?resumes, Fin.ext hvsp, fun j hj => ?below⟩
  case resumes => rw [hpc, huS, hown]
  case below =>
    rw [hvS]
    exact hother j (Fin.ne_of_lt hj)

/-! ## Jumps (40_control_transfer R81, R83) -/

/-- Settles O29: each target is below 65536, so it is the pc as it stands. -/
theorem jumpsSetThePc : Obligations.JumpsSetThePc := by
  unfold Obligations.JumpsSetThePc
  refine fun nnn s => ⟨⟨_, exec_jp nnn s, ?jump, rfl⟩, ⟨_, exec_jpV0 nnn s, ?offset, rfl⟩⟩
  case jump => exact addressOf_toNat nnn
  case offset =>
    rw [State.goto_pc, BitVec.toNat_ofNat]
    omega

/-! ## A finished program (70_reset_and_hazards R193) -/

theorem SameProgramState.trans {s t u : State} (h : SameProgramState s t) (h' : SameProgramState t u) :
    SameProgramState s u := by
  unfold SameProgramState at h h'
  rw [h] at h'
  exact h'

/-- Whether a program has finished is read off memory and pc, which such states share. -/
theorem SameProgramState.finished {s t : State} (h : SameProgramState s t) (hs : s.finished) : t.finished := by
  unfold SameProgramState at h
  rw [h]
  exact hs

/-- The instruction cycle of a finished program is the Jump to pc itself. -/
theorem State.finished.cycle_eq {s : State} (hs : s.finished) : cycle s = .next (s.goto s.pc) := by
  obtain ⟨nnn, hfetch, hpc⟩ := hs
  rw [cycle_of_fetch hfetch, decodeWord_encode rfl, exec_jp, hpc]

theorem State.finished.transition_same {s : State} (hs : s.finished) {e : HostEvent}
    (he : e.keepsRunning = true) : SameProgramState s (transition e s) := by
  cases e with
  | reset program => cases he
  | tick => rfl
  | step keys rnd =>
    have hsample : SameProgramState s (s.sample keys rnd) := rfl
    have hcycle := (hsample.finished hs).cycle_eq
    simp only [transition, hostMove, hcycle]
    rfl

/-- Settles O33: by induction on the events, each of which leaves the finished program as it is. -/
theorem aFinishedProgramStaysFinished : Obligations.AFinishedProgramStaysFinished := by
  unfold Obligations.AFinishedProgramStaysFinished
  intro s hs es hes
  suffices hsame : SameProgramState s (transitions es s) from ⟨hsame, hsame.finished hs⟩
  induction es generalizing s with
  | nil => rfl
  | cons e es ih =>
    obtain ⟨he, hes⟩ := List.forall_mem_cons.1 hes
    have hfirst := hs.transition_same he
    exact hfirst.trans (ih _ (hfirst.finished hs) hes)

end Sys2Proof.Machine

/-! PROOFS. The statement of 41_skips, with the two key skips of 45_keypad_timers.

Each of the six skips is `State.skipIf` on a condition or on the negation of one, so the next state is said
once for each of the two forms. -/

namespace Sys2Proof.Machine

theorem State.skipIf_of_iff (s : State) {c : Bool} {p : Prop} [Decidable p] (h : c = true ↔ p) :
    s.skipIf c = { s with pc := if p then s.pc + 4 else s.pc + 2, report := .ok } := by
  simp only [State.skipIf, State.goto, h]

theorem State.skipIf_not_of_iff (s : State) {c : Bool} {p : Prop} [Decidable p] (h : c = true ↔ p) :
    s.skipIf (!c) = { s with pc := if p then s.pc + 2 else s.pc + 4, report := .ok } := by
  rw [s.skipIf_of_iff (p := ¬ p) (by rw [Bool.not_eq_true', ← Bool.not_eq_true, h]), ite_not]

theorem beq_iff_toNat_eq (a b : Byte) : (a == b) = true ↔ a.toNat = b.toNat :=
  beq_iff_eq.trans BitVec.toNat_inj.symm

/-- The key that a key skip tests is the low 4 bits of its register (45_keypad_timers R140, R141). -/
theorem keyNumber_eq_of_mod {a : Byte} {k : Reg} (h : a.toNat % 16 = k.val) : keyNumber a = k :=
  Fin.ext ((keyNumber_val a).trans h)

/-- Settles O34: SE and SKP skip on the condition, SNE and SKNP on its negation. -/
theorem skipsAdvanceByFourExactlyOnTheirCondition :
    Obligations.SkipsAdvanceByFourExactlyOnTheirCondition := by
  unfold Obligations.SkipsAdvanceByFourExactlyOnTheirCondition
  intro x y kk k s hk
  have hkey : s.K[keyNumber s.V[x]] = true ↔ s.K[k] = true :=
    Bool.eq_iff_iff.1 (congrArg s.keyDown (keyNumber_eq_of_mod hk))
  refine ⟨?seImm, ?sneImm, ?seReg, ?sneReg, ?skp, ?sknp⟩
  case seImm => rw [exec_seImm, s.skipIf_of_iff (beq_iff_toNat_eq s.V[x] kk)]
  case sneImm => rw [exec_sneImm, bne, s.skipIf_not_of_iff (beq_iff_toNat_eq s.V[x] kk)]
  case seReg => rw [exec_seReg, s.skipIf_of_iff (beq_iff_toNat_eq s.V[x] s.V[y])]
  case sneReg => rw [exec_sneReg, bne, s.skipIf_not_of_iff (beq_iff_toNat_eq s.V[x] s.V[y])]
  case skp => rw [exec_skp, s.skipIf_of_iff hkey]
  case sknp => rw [exec_sknp, s.skipIf_not_of_iff hkey]

end Sys2Proof.Machine

namespace Sys2Proof.Machine

/-! PROOFS. The statements of 42_alu.

An instruction ends either with a result in V[x] or with a result in V[x] and then a flag in VF. The frame
and the registers after each of the two ends are said once; what is left of an instruction is its arithmetic. -/

/-! ## A result in a register (42_alu R101 to R106, R114) -/

theorem State.getElem_setV_self (s : State) (x : Reg) (b : Byte) : (s.setV x b).V[x] = b := by
  simp

theorem OnlyRegWritten.setV_advance (s : State) (x : Reg) (b : Byte) :
    OnlyRegWritten x s (s.setV x b).advance where
  regs _ hr := s.getElem_setV_of_ne hr b
  rest := rfl

/-- Settles O35: each instruction ends with its result in V[x], and the result is the sum modulo 256 or is
bitwise. -/
theorem loadsAndLogicWriteTheirRegisterOnly : Obligations.LoadsAndLogicWriteTheirRegisterOnly := by
  unfold Obligations.LoadsAndLogicWriteTheirRegisterOnly
  intro x y kk s
  refine ⟨⟨_, exec_ldImm x kk s, .setV_advance s x _, ?ldImm⟩,
    ⟨_, exec_addImm x kk s, .setV_advance s x _, ?addImm⟩,
    ⟨_, exec_ldReg x y s, .setV_advance s x _, ?ldReg⟩, ⟨_, exec_or x y s, .setV_advance s x _, ?or⟩,
    ⟨_, exec_and x y s, .setV_advance s x _, ?and⟩, ⟨_, exec_xor x y s, .setV_advance s x _, ?xor⟩⟩
  all_goals rw [State.advance_V, State.getElem_setV_self]
  case addImm => exact BitVec.toNat_add _ _
  case or => exact fun k => BitVec.getLsbD_or
  case and => exact fun k => BitVec.getLsbD_and
  case xor => exact fun k => BitVec.getLsbD_xor

/-! ## Randomize (42_alu R114) -/

theorem State.randomByte_of_some {s : State} {b : Byte} (h : s.rnd = some b) : s.randomByte = b := by
  simp [State.randomByte, h]

theorem State.randomByte_of_none {s : State} (h : s.rnd = none) :
    s.randomByte = Config.freeRandomByte s.draws := by
  simp [State.randomByte, h]

theorem State.drawRandom_of_some {s : State} {b : Byte} (h : s.rnd = some b) : s.drawRandom = s := by
  rw [State.drawRandom, if_pos (Option.isSome_of_eq_some h)]

theorem State.drawRandom_of_none {s : State} (h : s.rnd = none) :
    s.drawRandom = { s with draws := s.draws + 1 } := by
  simp [State.drawRandom, h]

/-- Settles O39: a byte the host gives uses up no free byte, and a free byte is counted. -/
theorem randomizeMasksAnyRandomByte : Obligations.RandomizeMasksAnyRandomByte := by
  unfold Obligations.RandomizeMasksAnyRandomByte
  refine fun x kk s => ⟨fun b hb => ?given, fun hnone => ?free⟩
  case given =>
    have hexec := exec_rnd x kk s
    rw [State.drawRandom_of_some hb, State.randomByte_of_some hb] at hexec
    exact ⟨_, hexec, .setV_advance s x _, s.getElem_setV_self x _⟩
  case free =>
    have hexec := exec_rnd x kk s
    rw [State.drawRandom_of_none hnone, State.randomByte_of_none hnone] at hexec
    exact ⟨_, hexec, State.getElem_setV_self _ x _, fun r hr => State.getElem_setV_of_ne _ hr _, rfl⟩

/-! ## A result in a register, then a flag in VF (42_alu R100, R107 to R111) -/

theorem OnlyRegAndFlagWritten.setV_setV_advance (s : State) (x : Reg) (b f : Byte) :
    OnlyRegAndFlagWritten x s ((s.setV x b).setV VF f).advance where
  regs _ hx hVF := (State.getElem_setV_of_ne _ hVF f).trans (s.getElem_setV_of_ne hx b)
  rest := rfl

/-- An instruction that ends with a result and a flag, with both as numbers; the flag is written last. -/
theorem exists_next_of_regAndFlag {i : Instr} {s : State} {x : Reg} {b : Byte} {f : Bool} {result flag : Nat}
    (h : exec i s = .next ((s.setV x b).setV VF (flagByte f)).advance) (hb : b.toNat = result)
    (hf : (flagByte f).toNat = flag) :
    ∃ t, exec i s = .next t ∧ OnlyRegAndFlagWritten x s t ∧ (x ≠ VF → t.V[x].toNat = result) ∧
      t.V[VF].toNat = flag := by
  refine ⟨_, h, .setV_setV_advance s x b _, fun hx => ?result, ?flag⟩
  case result => rw [State.advance_V, State.getElem_setV_of_ne _ hx, State.getElem_setV_self, hb]
  case flag => rw [State.advance_V, State.getElem_setV_self, hf]

/-! ### The flags as numbers -/

theorem flagByte_carryOut_toNat (a b : Byte) :
    (flagByte (carryOut a b)).toNat = if a.toNat + b.toNat > 255 then 1 else 0 := by
  simp [carryOut]

theorem flagByte_noBorrow_toNat (a b : Byte) :
    (flagByte (noBorrow a b)).toNat = if a.toNat < b.toNat then 0 else 1 := by
  by_cases h : a.toNat < b.toNat <;> simp [noBorrow, h]

theorem flagByte_shiftedOutRight_toNat (a : Byte) :
    (flagByte (shiftedOutRight a)).toNat = a.toNat % 2 := by
  rw [flagByte_toNat, shiftedOutRight, BitVec.getLsbD, Nat.testBit_zero]
  rcases Nat.mod_two_eq_zero_or_one a.toNat with h | h <;> simp [h]

theorem flagByte_shiftedOutLeft_toNat (a : Byte) :
    (flagByte (shiftedOutLeft a)).toNat = a.toNat / 128 := by
  have hbit : a.toNat / 128 = 0 ∨ a.toNat / 128 = 1 := by omega
  rw [flagByte_toNat, shiftedOutLeft, BitVec.getLsbD, Nat.testBit_eq_decide_div_mod_eq]
  rcases hbit with h | h <;> simp [h]

/-! ### The results as numbers (42_alu R112) -/

theorem byte_sub_toNat (a b : Byte) : (a - b).toNat = (a.toNat + 256 - b.toNat) % 256 := by
  bv_omega

theorem byte_shiftRight_one_toNat (a : Byte) : (a >>> 1).toNat = a.toNat / 2 := by
  rw [BitVec.toNat_ushiftRight, Nat.shiftRight_one]

theorem byte_shiftLeft_one_toNat (a : Byte) : (a <<< 1).toNat = 2 * a.toNat % 256 := by
  rw [BitVec.toNat_shiftLeft, Nat.shiftLeft_eq, Nat.mul_comm]

/-- Settles O36: the byte sum, and the carry from the true sum. -/
theorem addSetsTheCarry : Obligations.AddSetsTheCarry := by
  unfold Obligations.AddSetsTheCarry
  exact fun x y s =>
    exists_next_of_regAndFlag (exec_addReg x y s) (BitVec.toNat_add _ _) (flagByte_carryOut_toNat _ _)

/-- Settles O37: the byte difference each way, and the borrow from the comparison of its operands. -/
theorem subtractsClearTheFlagOnABorrow : Obligations.SubtractsClearTheFlagOnABorrow := by
  unfold Obligations.SubtractsClearTheFlagOnABorrow
  exact fun x y s =>
    ⟨exists_next_of_regAndFlag (exec_sub x y s) (byte_sub_toNat _ _) (flagByte_noBorrow_toNat _ _),
      exists_next_of_regAndFlag (exec_subn x y s) (byte_sub_toNat _ _) (flagByte_noBorrow_toNat _ _)⟩

/-- Settles O38: the bit that drops out is the remainder by 2 or the quotient by 128. -/
theorem shiftsKeepTheDroppedBitInVF : Obligations.ShiftsKeepTheDroppedBitInVF := by
  unfold Obligations.ShiftsKeepTheDroppedBitInVF
  exact fun x y s =>
    ⟨exists_next_of_regAndFlag (exec_shr x y s) (byte_shiftRight_one_toNat _)
        (flagByte_shiftedOutRight_toNat _),
      exists_next_of_regAndFlag (exec_shl x y s) (byte_shiftLeft_one_toNat _)
        (flagByte_shiftedOutLeft_toNat _)⟩

/-! ## The values of the flag (42_alu R113) -/

/-- A flag writer that completes writes the flag last: only pc advances after it. -/
theorem exists_eq_setV_VF_of_writesFlag {i : Instr} {s t : State} (hi : writesFlag i = true)
    (h : exec i s = .next t) : ∃ (u : State) (f : Bool), t = (u.setV VF (flagByte f)).advance := by
  cases i with
  | addReg | sub | shr | subn | shl | addI => cases h; exact ⟨_, _, rfl⟩
  | drw x y n =>
    rw [exec_drw, withData_next_iff] at h
    obtain ⟨-, rfl⟩ := h
    exact ⟨_, _, rfl⟩
  | _ => cases hi

/-- Settles O17: VF holds a flag byte after each of the seven writers. -/
theorem flagValuesAreZeroOrOne : Obligations.FlagValuesAreZeroOrOne := by
  unfold Obligations.FlagValuesAreZeroOrOne
  intro i s t hi h
  obtain ⟨u, f, rfl⟩ := exists_eq_setV_VF_of_writesFlag hi h
  rw [State.advance_V, State.getElem_setV_self]
  exact flagByte_zero_or_one f

end Sys2Proof.Machine

namespace Sys2Proof.Machine

/-! PROOFS. The statements of 43_index_memory.

A store or load from I completes when its bytes lie in memory and faults when they do not; either answer is
said once, as is what memory reads at and around the bytes stored from I. What is left of an instruction is
which bytes it stores or loads and how it moves I. -/

/-! ## The address register (43_index_memory R120 to R122, D16, D17) -/

/-- I plus a byte wraps modulo 65536. -/
theorem word_add_byte_toNat (i : Word) (a : Byte) :
    (i + a.setWidth 16).toNat = (i.toNat + a.toNat) % 65536 := by
  rw [BitVec.toNat_add, BitVec.toNat_setWidth_of_le (by decide)]

theorem flagByte_indexOverflow_toNat (i : Word) (a : Byte) :
    (flagByte (indexOverflow i a)).toNat = if i.toNat + a.toNat > 0xFFF then 1 else 0 := by
  simp [indexOverflow]

/-- The address of a glyph does not wrap, whatever the byte. -/
theorem fontAddress_toNat (a : Byte) : (BitVec.ofNat 16 (a.toNat * 5)).toNat = 5 * a.toNat := by
  rw [BitVec.toNat_ofNat]
  omega

/-- Settles O40: the new I as a number, and a flag that is the only register written. -/
theorem addressRegisterInstructionsSetI : Obligations.AddressRegisterInstructionsSetI := by
  unfold Obligations.AddressRegisterInstructionsSetI
  refine fun x nnn s => ⟨⟨_, exec_ldI nnn s, addressOf_toNat nnn, rfl⟩,
    ⟨_, exec_addI x s, word_add_byte_toNat _ _, ?flag, fun r hr => ?others, rfl⟩,
    ⟨_, exec_ldF x s, fontAddress_toNat _, rfl⟩⟩
  case flag => rw [State.advance_V, State.getElem_setV_self, flagByte_indexOverflow_toNat]
  case others => exact State.getElem_setV_of_ne _ hr _

/-! ## A checked access from I (20_memory R44, R50; D2, D3) -/

theorem withData_of_inside {s : State} {n : Nat} (i : Instr) (go : Result)
    (h : s.I.toNat + n ≤ 0xFFF) : withData s i (n + 1) go = go :=
  withData_ok s i (n + 1) go (.inr (Nat.succ_le_succ h))

/-- The address of a data fault is I when I itself lies outside memory, else the first address outside. -/
theorem withData_of_past {s : State} {n : Nat} (i : Instr) (go : Result)
    (h : s.I.toNat + n > 0xFFF) : withData s i (n + 1) go = .fault
      (.memoryData s.pc (encode i) (if s.I.toNat > 0xFFF then s.I.toNat else 0x1000)) := by
  rw [withData_outside s i (n + 1) go ⟨n.succ_ne_zero, Nat.succ_lt_succ h⟩, ← ite_not]
  simp only [Nat.not_lt, gt_iff_lt, Nat.succ_le_iff]

/-- I moves past the bytes accessed, modulo 65536 (D16). -/
theorem State.advanceI_toNat (s : State) (k : Nat) : (s.advanceI k).I.toNat = (s.I.toNat + k) % 65536 := by
  rw [State.advanceI_I, BitVec.toNat_add, BitVec.toNat_ofNat, Nat.add_mod_mod]

/-! ## Memory after bytes are stored from I (20_memory R46, R52) -/

section
variable {s : State} {bs : List Byte} (hwf : s.M.wf = true) (hfit : s.I.toNat + bs.length ≤ Config.memSize)
include hwf hfit

theorem State.read_storeAtI_inside {k : Nat} (hk : k < bs.length) :
    (s.storeAtI bs).M.read (s.I.toNat + k) = bs[k] := by
  rw [State.storeAtI_M, Memory.read_writeBytes hwf hfit, Nat.add_sub_cancel_left,
    if_pos ⟨Nat.le_add_right _ _, Nat.add_lt_add_left hk _⟩, List.getD_eq_getElem _ _ hk]

theorem State.read_storeAtI_outside {a : Nat} (ha : a < s.I.toNat ∨ s.I.toNat + bs.length ≤ a) :
    (s.storeAtI bs).M.read a = s.M.read a := by
  rw [State.storeAtI_M, Memory.read_writeBytes hwf hfit, if_neg (by omega)]

end

/-! ## BCD store (43_index_memory R123) -/

theorem bcdDigits_map_toNat (a : Byte) :
    (bcdDigits a).map BitVec.toNat = [a.toNat / 100, a.toNat / 10 % 10, a.toNat % 10] := by
  simp only [bcdDigits, List.map_cons, List.map_nil, BitVec.toNat_ofNat, List.cons.injEq, and_true]
  omega

theorem bcdDigits_getElem_toNat {a : Byte} {k : Nat} (hk : k < (bcdDigits a).length) :
    (bcdDigits a)[k].toNat = [a.toNat / 100, a.toNat / 10 % 10, a.toNat % 10][k] :=
  (List.getElem_map BitVec.toNat).symm.trans
    (List.getElem_of_eq (bcdDigits_map_toNat a) (List.length_map BitVec.toNat ▸ hk))

/-- Settles O41: the three bytes stored from I are the digits. -/
theorem bcdStoreWritesThreeDigits : Obligations.BcdStoreWritesThreeDigits := by
  unfold Obligations.BcdStoreWritesThreeDigits
  refine fun x s hwf => ⟨fun hI => ?inside, fun hI => (exec_ldB x s).trans (withData_of_past _ _ hI)⟩
  have hfit : s.I.toNat + (bcdDigits s.V[x]).length ≤ Config.memSize := Nat.succ_le_succ hI
  have hdigit (k : Nat) (hk : k < (bcdDigits s.V[x]).length) :
      ((s.storeAtI (bcdDigits s.V[x])).M.read (s.I.toNat + k)).toNat =
        [s.V[x].toNat / 100, s.V[x].toNat / 10 % 10, s.V[x].toNat % 10][k] := by
    rw [State.read_storeAtI_inside hwf hfit hk, bcdDigits_getElem_toNat]
  exact ⟨_, (exec_ldB x s).trans (withData_of_inside _ _ hI),
    hdigit 0 (by decide : 0 < 3), hdigit 1 (by decide : 1 < 3), hdigit 2 (by decide : 2 < 3),
    fun a ha => State.read_storeAtI_outside hwf hfit ha, rfl⟩

/-! ## Block store and block load (43_index_memory R124, R125) -/

/-- Settles O42: V0..Vx are the x + 1 bytes stored from I. -/
theorem blockStoreWritesTheFirstRegisters : Obligations.BlockStoreWritesTheFirstRegisters := by
  unfold Obligations.BlockStoreWritesTheFirstRegisters
  refine fun x s hwf => ⟨fun hI => ?inside, fun hI => (exec_stRegs x s).trans (withData_of_past _ _ hI)⟩
  have hlen := s.firstRegs_length x
  have hfit : s.I.toNat + (s.firstRegs x).length ≤ Config.memSize := hlen ▸ Nat.succ_le_succ hI
  exact ⟨_, (exec_stRegs x s).trans (withData_of_inside _ _ hI),
    fun r hr => State.read_storeAtI_firstRegs hwf hI hr,
    fun a ha => State.read_storeAtI_outside hwf hfit (hlen ▸ ha),
    State.advanceI_toNat _ _, rfl⟩

theorem State.getElem_loadedRegs_of_le (s : State) {x r : Reg} (h : r ≤ x) (a : Nat) :
    (s.loadedRegs x a)[r] = s.M.read (a + r.val) := by
  simp [State.loadedRegs, h]

/-- Settles O43: the registers up to x are loaded, the others kept; memory is not written. -/
theorem blockLoadReadsTheFirstRegisters : Obligations.BlockLoadReadsTheFirstRegisters := by
  unfold Obligations.BlockLoadReadsTheFirstRegisters
  refine fun x s => ⟨fun hI => ?inside, fun hI => (exec_ldRegs x s).trans (withData_of_past _ _ hI)⟩
  refine ⟨_, (exec_ldRegs x s).trans (withData_of_inside _ _ hI),
    fun r hr => s.getElem_loadedRegs_of_le hr _,
    fun r hr => s.getElem_loadedRegs_of_not_le (Nat.not_le_of_lt hr) _,
    fun _ => rfl, State.advanceI_toNat _ _, ?frame⟩
  case frame =>
    -- The frame holds for any registers; with the loaded ones left in it, Lean would evaluate them.
    generalize s.loadedRegs x s.I.toNat = regs
    rfl

end Sys2Proof.Machine

namespace Sys2Proof.Machine

/-! PROOFS. The statements of 44_display.

A draw visits the pixels of its sprite and none of them twice, so it inverts exactly those and hits exactly
when one of them was set; two draws of the same sprite cancel out. Both are said of the state's own draw
(`State.drawn`); what is left is that VF holds the hit and that the second draw finds the same sprite. -/

/-- Settles O45: every pixel of a framebuffer of zeros is 0. -/
theorem clearScreenZeroesEveryPixel : Obligations.ClearScreenZeroesEveryPixel := by
  unfold Obligations.ClearScreenZeroesEveryPixel
  exact fun s => ⟨_, exec_cls s, pixel_blank, rfl⟩

/-! ## What a draw inverts and hits (44_display R131, R132) -/

theorem pixel_drawPixels_ne_iff {ps : List Pixel} (hps : ps.Nodup) (fb : Framebuffer) (hit : Bool)
    (p : Pixel) : pixel (drawPixels ps fb hit).1 p ≠ pixel fb p ↔ p ∈ ps := by
  rw [drawPixels_pixel hps]
  split
  · next hp => exact iff_of_true (Bool.not_ne_self _) hp
  · next hp => exact iff_of_false (fun hne => hne rfl) hp

theorem spritePixels_readBytes_nodup (x0 y0 : Byte) (m : Memory) (a : Nat) (n : Nibble) :
    (spritePixels x0 y0 0 (m.readBytes a n.toNat)).Nodup :=
  spritePixels_nodup _ _ _ _ (by rw [Memory.readBytes_length]; omega)

theorem State.pixel_drawn_ne_iff (s : State) (x y : Reg) (n : Nibble) (p : Pixel) :
    pixel (s.drawn x y n).1 p ≠ pixel s.FB p ↔ underSprite s.M s.I.toNat n.toNat s.V[x] s.V[y] p := by
  rw [← mem_spritePixels_readBytes]
  exact pixel_drawPixels_ne_iff (spritePixels_readBytes_nodup ..) s.FB false p

theorem State.drawn_hit_iff (s : State) (x y : Reg) (n : Nibble) :
    (s.drawn x y n).2 = true ↔
      ∃ p, underSprite s.M s.I.toNat n.toNat s.V[x] s.V[y] p ∧ pixel s.FB p = true := by
  simp only [← mem_spritePixels_readBytes, State.drawn, drawPixels_hit (spritePixels_readBytes_nodup ..),
    Bool.false_or, List.any_eq_true, State.getV]

theorem flagByte_eq_one_iff (b : Bool) : flagByte b = 1 ↔ b = true := by cases b <;> decide

theorem flagByte_eq_zero_iff (b : Bool) : flagByte b = 0 ↔ b ≠ true := by cases b <;> decide

/-! ## Draw by its guard (44_display R132; D2, D26) -/

theorem exec_drw_of_inside {n : Nibble} {s : State} (x y : Reg)
    (h : n = 0 ∨ s.I.toNat + n.toNat - 1 ≤ 0xFFF) : exec (.drw x y n) s = .next
      (({ s with FB := (s.drawn x y n).1 } : State).setV VF (flagByte (s.drawn x y n).2)).advance := by
  rw [exec_drw, withData_ok]
  rcases h with rfl | hI
  · exact .inl rfl
  · exact .inr (by omega)

theorem exec_drw_of_past {n : Nibble} {s : State} (x y : Reg) (hn : n ≠ 0)
    (h : s.I.toNat + n.toNat - 1 > 0xFFF) : exec (.drw x y n) s = .fault
      (.memoryData s.pc (encode (.drw x y n)) (if s.I.toNat > 0xFFF then s.I.toNat else 0x1000)) := by
  obtain ⟨k, hk⟩ := Nat.exists_eq_succ_of_ne_zero fun h0 => hn (BitVec.eq_of_toNat_eq h0)
  rw [hk] at h
  rw [exec_drw, hk]
  exact withData_of_past _ _ h

/-- Settles O46: the pixels inverted are those of the sprite, and VF is the hit, written last. -/
theorem drawXorsTheSpriteAndReportsCollision : Obligations.DrawXorsTheSpriteAndReportsCollision := by
  unfold Obligations.DrawXorsTheSpriteAndReportsCollision
  refine fun x y n s => ⟨fun h => ?inside, exec_drw_of_past x y⟩
  refine ⟨_, exec_drw_of_inside x y h, s.pixel_drawn_ne_iff x y n, fun hit => ?hit, fun noHit => ?noHit,
    fun r hr => State.getElem_setV_of_ne _ hr _, rfl⟩
  case hit =>
    rw [State.advance_V, State.getElem_setV_self]
    exact (flagByte_eq_one_iff _).2 ((s.drawn_hit_iff x y n).2 hit)
  case noHit =>
    rw [State.advance_V, State.getElem_setV_self]
    exact (flagByte_eq_zero_iff _).2 (mt (s.drawn_hit_iff x y n).1 noHit)

/-! ## Drawing twice (44_display R133) -/

section
variable {ps : List Pixel} (hps : ps.Nodup) (fb : Framebuffer) (hit : Bool)
include hps

theorem drawPixels_drawPixels_fst (hit' : Bool) : (drawPixels ps (drawPixels ps fb hit).1 hit').1 = fb := by
  apply framebuffer_ext
  intro p
  rw [drawPixels_pixel hps, drawPixels_pixel hps]
  split
  · exact Bool.not_not _
  · rfl

/-- A listed pixel is set between the draws exactly when it is one that the first draw turned on. -/
theorem drawPixels_drawPixels_hit_iff : (drawPixels ps (drawPixels ps fb hit).1 false).2 = true ↔
    ∃ p, pixel fb p = false ∧ pixel (drawPixels ps fb hit).1 p = true := by
  rw [drawPixels_hit hps, Bool.false_or, List.any_eq_true]
  refine exists_congr fun p => and_congr_left fun hp => ?_
  rw [← pixel_drawPixels_ne_iff hps fb hit, hp, ne_comm, Ne, Bool.not_eq_true]

end

/-- With VF neither coordinate, the second draw finds the sprite of the first, on the first one's result. -/
theorem State.drawn_after_draw (s : State) {x y : Reg} (n : Nibble) (hx : x ≠ VF) (hy : y ≠ VF)
    (fb : Framebuffer) (f : Byte) : ((({ s with FB := fb } : State).setV VF f).advance).drawn x y n =
      drawPixels (spritePixels (s.getV x) (s.getV y) 0 (s.M.readBytes s.I.toNat n.toNat)) fb false := by
  have hgetV {r : Reg} (hr : r ≠ VF) : ((({ s with FB := fb } : State).setV VF f).advance).getV r = s.getV r :=
    State.getElem_setV_of_ne _ hr f
  rw [State.drawn, hgetV hx, hgetV hy]
  rfl

/-- Settles O47: the second draw undoes the first, and what it hits is what the first one turned on. -/
theorem drawingTwiceRestoresTheFramebuffer : Obligations.DrawingTwiceRestoresTheFramebuffer := by
  unfold Obligations.DrawingTwiceRestoresTheFramebuffer
  intro x y n s hx hy h
  have hps := spritePixels_readBytes_nodup (s.getV x) (s.getV y) s.M s.I.toNat n
  refine ⟨_, _, exec_drw_of_inside x y h, exec_drw_of_inside x y h, ?restored, ?flag, ?hit⟩
  case restored =>
    rw [State.advance_FB, State.setV_FB, s.drawn_after_draw n hx hy]
    exact drawPixels_drawPixels_fst hps s.FB false false
  case flag =>
    rw [State.advance_V, State.getElem_setV_self, flagByte_toNat]
    split <;> decide
  case hit =>
    rw [State.advance_V, State.getElem_setV_self, flagByte_eq_one_iff, s.drawn_after_draw n hx hy]
    exact drawPixels_drawPixels_hit_iff hps s.FB false

end Sys2Proof.Machine

/-! PROOFS. The statements of 45_keypad_timers on Wait for key and the timer instructions; the two key skips
are among the skips of 41_skips.

What decides a Wait for key is the lowest pressed key, so its two outcomes are said once in those terms. A
waiting machine has the Wait for key at pc, which every keyless transition leaves there. -/

namespace Sys2Proof.Machine

/-! ## Wait for key (R142) -/

theorem exec_ldVxK_of_none (x : Reg) {s : State} (h : ∀ k : Reg, s.K[k] = false) :
    exec (.ldVxK x) s = .next s.suspend := by
  obtain ⟨_, hexec⟩ | ⟨k, hk, _⟩ := exec_ldVxK_cases x s
  · exact hexec
  · rw [h k] at hk
    cases hk

theorem exec_ldVxK_of_lowest (x : Reg) {s : State} {k : Reg} (hk : s.K[k] = true)
    (hlow : ∀ j : Reg, j < k → s.K[j] = false) :
    exec (.ldVxK x) s = .next (s.setV x (keyByte k)).advance := by
  obtain ⟨hnone, _⟩ | ⟨k', _, hk', hexec⟩ := exec_ldVxK_cases x s
  · rw [hnone k] at hk
    cases hk
  · obtain rfl : k = k' := Option.some.inj ((State.lowestKey_some hk hlow).symm.trans hk')
    exact hexec

theorem getElem_setV_keyByte_toNat (s : State) (x k : Reg) : (s.setV x (keyByte k)).V[x].toNat = k.val := by
  rw [State.getElem_setV_self, keyByte_toNat]

/-- Settles O48: with no key the Step suspends, and with one the lowest goes to V[x]. -/
theorem waitForKeySuspendsOrTakesTheLowestKey : Obligations.WaitForKeySuspendsOrTakesTheLowestKey := by
  unfold Obligations.WaitForKeySuspendsOrTakesTheLowestKey
  refine fun x s => ⟨exec_ldVxK_of_none x, fun k hk hlow => ?lowest⟩
  exact ⟨_, exec_ldVxK_of_lowest x hk hlow, .setV_advance s x _, getElem_setV_keyByte_toNat s x k⟩

/-! ## Waiting (R142; 60_exceptions R178) -/

/-- The next instruction is a Wait for key. -/
def State.waits (s : State) (x : Reg) : Prop := s.fetch = .ok (encode (.ldVxK x))

/-- Whether a machine waits is read off memory and pc, which such states share. -/
theorem SameProgramState.waits {s t : State} {x : Reg} (h : SameProgramState s t) (hs : s.waits x) :
    t.waits x := by
  unfold SameProgramState at h
  rw [h]
  exact hs

theorem State.waits.cycle_eq {s : State} {x : Reg} (hs : s.waits x) : cycle s = exec (.ldVxK x) s := by
  rw [cycle_of_fetch hs, decodeWord_encode rfl]

theorem SameProgramState.sample (s : State) (keys : Keys) (r : Option Byte) :
    SameProgramState s (s.sample keys r) := rfl

theorem State.waits.step_eq {s : State} {x : Reg} (hs : s.waits x) (keys : Keys) (r : Option Byte) :
    hostMove (.step keys r) s = exec (.ldVxK x) (s.sample keys r) :=
  ((SameProgramState.sample s keys r).waits hs).cycle_eq

/-- A Tick is no instruction, and a Step without a key is suspended. -/
theorem State.waits.transition_same {s : State} {x : Reg} (hs : s.waits x) {e : HostEvent}
    (he : e.pressesNothing = true) : SameProgramState s (transition e s) := by
  cases e with
  | reset program => cases he
  | tick => rfl
  | step keys r =>
    have hkeys : keys = Keys.none := beq_iff_eq.1 he
    have hmove : hostMove (.step keys r) s = .next (s.sample keys r).suspend :=
      (hs.step_eq keys r).trans (exec_ldVxK_of_none x ((Keys.none_iff keys).1 hkeys))
    rw [transition, hmove]
    rfl

theorem State.waits.transitions_same {s : State} {x : Reg} (hs : s.waits x) {es : List HostEvent}
    (hes : ∀ e ∈ es, e.pressesNothing = true) : SameProgramState s (transitions es s) := by
  induction es generalizing s with
  | nil => rfl
  | cons e es ih =>
    obtain ⟨he, hes⟩ := List.forall_mem_cons.1 hes
    have hfirst := hs.transition_same he
    exact hfirst.trans (ih (hfirst.waits hs) hes)

theorem SameProgramState.pc_eq {s t : State} (h : SameProgramState s t) : t.pc = s.pc := by
  unfold SameProgramState at h
  rw [h]

/-- Settles O49: the machine still waits after the keyless events, so the Step with a key completes it. -/
theorem waitingEndsWithTheFirstKey : Obligations.WaitingEndsWithTheFirstKey := by
  unfold Obligations.WaitingEndsWithTheFirstKey
  intro x s hs es hes
  have hsame := State.waits.transitions_same hs hes
  refine ⟨hsame, fun keys r k hk hlow => ?key⟩
  have hmove := ((hsame.waits hs).step_eq keys r).trans (exec_ldVxK_of_lowest x hk hlow)
  refine ⟨_, hmove, getElem_setV_keyByte_toNat _ x k, ?pc, rfl⟩
  rw [State.advance_pc, State.setV_pc, State.sample_pc, hsame.pc_eq]

/-! ## The timer instructions (R143 to R145) -/

/-- Settles O50: each of the three completes with one byte copied and pc advanced. -/
theorem timerInstructionsMoveBytes : Obligations.TimerInstructionsMoveBytes := by
  unfold Obligations.TimerInstructionsMoveBytes
  exact fun x s => ⟨⟨_, exec_ldVxDt x s, .setV_advance s x _, s.getElem_setV_self x _⟩,
    ⟨_, exec_ldDtVx x s, rfl, rfl⟩, ⟨_, exec_ldStVx x s, rfl, rfl⟩⟩

end Sys2Proof.Machine

/-! PROOFS. The statements of 46_unrecognized.

The decoder gives the unrecognized instruction to the words outside the opcode table and to no others, and
that instruction is the only one that reports UnknownOpcode; so the report names the word that was fetched. -/

namespace Sys2Proof.Machine

/-! ## The word (30_encoding R66, 46_unrecognized R150) -/

/-- The instruction keeps the word itself, since encoding it gives the decoded word back. -/
theorem decodeWord_eq_unk_iff_not_recognized {op w : Word} :
    decodeWord op = .unk w ↔ w = op ∧ recognized op = false := by
  have hop : decodeWord op = .unk op ↔ recognized op = false :=
    (decodeWord_eq_unk_iff op).trans (recognized_eq_false_iff op).symm
  constructor
  · intro h
    have hw : w = op := by rw [← encode_decodeWord op, h, encode]
    exact ⟨hw, hop.1 (hw ▸ h)⟩
  · rintro ⟨rfl, h⟩
    exact hop.2 h

/-- Settles O51: by the decoder's law and the equation of the unrecognized instruction. -/
theorem unrecognizedWordsAreReportedNoOps : Obligations.UnrecognizedWordsAreReportedNoOps := by
  unfold Obligations.UnrecognizedWordsAreReportedNoOps
  exact fun op s h => ⟨decodeWord_eq_unk_iff_not_recognized.2 ⟨rfl, h⟩, exec_unk op s⟩

/-! ## The report (46_unrecognized R150, R151) -/

/-- Every other instruction that completes reports Ok or that it is suspended. -/
theorem Completion.report_eq_unknownOpcode_iff {i : Instr} {s t : State} (h : Completion s i t) {p w : Word} :
    t.report = .unknownOpcode p w ↔ i = .unk w ∧ p = s.pc := by
  cases h with
  | unk op => simp [and_comm, eq_comm]
  | skip hc =>
    refine iff_of_false (by simp) ?_
    rintro ⟨rfl, -⟩
    cases hc
  | register b hw | registerAndFlag b f hw =>
    refine iff_of_false (by simp) ?_
    rintro ⟨rfl, -⟩
    cases hw
  | _ => simp

/-- A cycle that completes reports its own pc and the word fetched there, when the word is unrecognized. -/
theorem cycle_report_eq_unknownOpcode_iff {s t : State} (h : cycle s = .next t) {p w : Word} :
    t.report = .unknownOpcode p w ↔ p = s.pc ∧ s.fetch = .ok w ∧ recognized w = false := by
  obtain ⟨op, hfetch, hexec⟩ := cycle_next h
  have hword : s.fetch = .ok w ↔ w = op := by rw [hfetch, Except.ok.injEq, eq_comm]
  rw [(completion_of_exec hexec).report_eq_unknownOpcode_iff, decodeWord_eq_unk_iff_not_recognized, hword,
    and_comm]
  exact and_congr_right fun _ => and_congr_right fun hw => by rw [hw]

/-- Settles O52: sampling the inputs changes neither pc nor memory, so the cycle fetches the word at pc. -/
theorem onlyUnrecognizedWordsAreReported : Obligations.OnlyUnrecognizedWordsAreReported := by
  unfold Obligations.OnlyUnrecognizedWordsAreReported
  intro s t keys r h
  have hreport {p w : Word} :
      t.report = .unknownOpcode p w ↔ p = s.pc ∧ s.fetch = .ok w ∧ recognized w = false :=
    cycle_report_eq_unknownOpcode_iff (s := s.sample keys r) h
  simp only [hreport, exists_and_left, exists_eq_left]

end Sys2Proof.Machine

/-! PROOFS. The statements of 60_exceptions.

`Raises` lists the faults of an instruction with their guards, so the sites, the information and the
repetition of a fault are read off that list. The timers are read by no guard and by three instructions
only, so a Tick passes every other instruction. -/

namespace Sys2Proof.Machine

/-! ## The sites of the faults (60_exceptions R162, R163) -/

/-- The instruction accesses bytes from I, and the last of them lies beyond 0xFFF. -/
def DataOutside (i : Instr) (s : State) : Prop :=
  dataLength i ≠ 0 ∧ 0x1000 < s.I.toNat + dataLength i

theorem exec_of_dataOutside {i : Instr} {s : State} (h : DataOutside i s) : exec i s =
    .fault (.memoryData s.pc (encode i) (if s.I.toNat < 0x1000 then 0x1000 else s.I.toNat)) := by
  cases i with
  | drw | ldB | stRegs | ldRegs => exact withData_outside _ _ _ _ h
  | _ => exact absurd rfl h.1

/-- `Raises` is exact: what it lists is what the instruction does. -/
theorem exec_eq_fault_iff {i : Instr} {s : State} {f : Fault} : exec i s = .fault f ↔ Raises s i f := by
  refine ⟨raises_of_exec, fun h => ?_⟩
  cases h with
  | data i h => exact exec_of_dataOutside h
  | overflow nnn h => exact exec_call_of_full nnn h
  | underflow h => exact exec_ret_of_empty h

theorem exec_memoryData_iff (i : Instr) (s : State) :
    (∃ p op a, exec i s = .fault (.memoryData p op a)) ↔ DataOutside i s := by
  constructor
  · rintro ⟨p, op, a, h⟩
    cases raises_of_exec h with
    | data _ hout => exact hout
  · exact fun h => ⟨_, _, _, exec_of_dataOutside h⟩

/-- The instructions that access bytes from I, each with the last address of its access (R162). -/
theorem dataOutside_iff (i : Instr) (s : State) : DataOutside i s ↔
    (∃ x y n, i = .drw x y n ∧ 1 ≤ n.toNat ∧ s.I.toNat + n.toNat - 1 > 0xFFF) ∨
    (∃ x, i = .ldB x ∧ s.I.toNat + 2 > 0xFFF) ∨
    (∃ x, i = .stRegs x ∧ s.I.toNat + x.val > 0xFFF) ∨
    (∃ x, i = .ldRegs x ∧ s.I.toNat + x.val > 0xFFF) := by
  cases i with
  | drw | ldB | stRegs | ldRegs => simp [DataOutside, dataLength]; omega
  | _ => simp [DataOutside, dataLength]

/-- Settles O9: the fetch raises the one fault, the accesses from I the other. -/
theorem memoryFaultsComeFromTheListedSitesOnly : Obligations.MemoryFaultsComeFromTheListedSitesOnly := by
  unfold Obligations.MemoryFaultsComeFromTheListedSitesOnly
  refine ⟨fun s => ?fetch, fun i s => (exec_memoryData_iff i s).trans (dataOutside_iff i s), exec_ne_memoryFetch⟩
  simp [cycle_eq_memoryFetch_iff, State.fetch_error_iff]

/-- Settles O10: of the listed faults, one is of Call and one of Return, each with its guard. -/
theorem stackFaultsComeFromCallAndReturnOnly : Obligations.StackFaultsComeFromCallAndReturnOnly := by
  unfold Obligations.StackFaultsComeFromCallAndReturnOnly
  refine fun i s => ⟨⟨?overflows, ?full⟩, ⟨?underflows, ?empty⟩⟩
  case overflows =>
    rintro ⟨p, op, n, h⟩
    cases raises_of_exec h with
    | overflow nnn hsp => exact ⟨⟨nnn, rfl⟩, hsp⟩
  case full =>
    rintro ⟨⟨nnn, rfl⟩, hsp⟩
    exact ⟨_, _, _, exec_call_of_full nnn hsp⟩
  case underflows =>
    rintro ⟨p, op, n, h⟩
    cases raises_of_exec h with
    | underflow hsp => exact ⟨rfl, hsp⟩
  case empty =>
    rintro ⟨rfl, hsp⟩
    exact ⟨_, _, _, exec_ret_of_empty hsp⟩

/-! ## The information of a fault (60_exceptions R165; D4) -/

/-- Settles O11: the fetch fault from the law of the fetch, the others from the list of `Raises`. -/
theorem faultsCarryPcWordAndAddress : Obligations.FaultsCarryPcWordAndAddress := by
  unfold Obligations.FaultsCarryPcWordAndAddress
  refine ⟨fun s f h hpc => ?fetch, fun i s f h => ?instruction⟩
  case fetch =>
    rw [cycle_of_fetch_error ((s.fetch_error_iff _).2 ⟨hpc, rfl⟩)] at h
    cases h
    congr 1
    split <;> split <;> omega
  case instruction =>
    cases raises_of_exec h with
    | data _ hout =>
      refine .inl (congrArg _ ?_)
      split <;> split <;> omega
    | overflow => exact .inr (.inl rfl)
    | underflow => exact .inr (.inr rfl)

/-! ## No refusal (60_exceptions R171) -/

/-- Settles O12: two runs of an instruction from one state end alike in a next state or in a fault, and
`SameOutcome` has no third case. -/
theorem noInstructionIsRefused : Obligations.NoInstructionIsRefused := by
  unfold Obligations.NoInstructionIsRefused
  intro i s r h
  have hagree : AgreeOnReads i s s := ⟨rfl, fun _ _ => rfl, fun _ => rfl, fun _ => rfl⟩
  have hsame := exec_sameOutcome hagree
  rw [h] at hsame
  cases hsame

/-! ## A fault repeats (60_exceptions R166, R170; D3)

The guards look at memory, pc, I and sp only: none of these is a timer or an input of the host. -/

theorem SameProgramState.refl (s : State) : SameProgramState s s := rfl

theorem SameProgramState.raises {s t : State} (h : SameProgramState s t) {i : Instr} {f : Fault}
    (hs : Raises s i f) : Raises t i f := by
  unfold SameProgramState at h
  rw [h]
  cases hs with
  | data i hout => exact .data i hout
  | overflow nnn hsp => exact .overflow nnn hsp
  | underflow hsp => exact .underflow hsp

theorem SameProgramState.fetch_eq {s t : State} (h : SameProgramState s t) : t.fetch = s.fetch := by
  unfold SameProgramState at h
  rw [h]
  rfl

theorem SameProgramState.cycle_fault {s t : State} (h : SameProgramState s t) {f : Fault}
    (hs : cycle s = .fault f) : cycle t = .fault f := by
  have hfetch := h.fetch_eq
  rcases hf : s.fetch with a | op
  · rw [cycle_of_fetch_error (hfetch.trans hf), h.pc_eq, ← hs, cycle_of_fetch_error hf]
  · rw [cycle_of_fetch hf, exec_eq_fault_iff] at hs
    rw [cycle_of_fetch (hfetch.trans hf), exec_eq_fault_iff]
    exact h.raises hs

theorem SameProgramState.sample_sample {s t : State} (h : SameProgramState s t) (keys keys' : Keys)
    (r r' : Option Byte) : SameProgramState (s.sample keys r) (t.sample keys' r') := by
  unfold SameProgramState at h
  rw [h]
  rfl

section
variable {s t : State} {keys : Keys} {r : Option Byte} {f : Fault}
  (hfault : hostMove (.step keys r) s = .fault f)
include hfault

/-- Two such states and two Steps differ in nothing the fault depends on. -/
theorem SameProgramState.step_fault (h : SameProgramState s t) (keys' : Keys) (r' : Option Byte) :
    hostMove (.step keys' r') t = .fault f :=
  (h.sample_sample keys keys' r r').cycle_fault hfault

theorem transition_same_of_fault {e : HostEvent} (he : e.keepsRunning = true) :
    SameProgramState s (transition e s) := by
  cases e with
  | reset program => cases he
  | tick => rfl
  | step keys' r' =>
    rw [transition_of_fault ((SameProgramState.refl s).step_fault hfault keys' r')]
    rfl

theorem transitions_same_of_fault {es : List HostEvent} (hes : ∀ e ∈ es, e.keepsRunning = true) :
    SameProgramState s (transitions es s) := by
  induction es generalizing s with
  | nil => rfl
  | cons e es ih =>
    obtain ⟨he, hes⟩ := List.forall_mem_cons.1 hes
    have hfirst := transition_same_of_fault hfault he
    exact hfirst.trans (ih (hfirst.step_fault hfault keys r) hes)

end

/-- Settles O13: Steps and Ticks keep all that the fault depends on, by induction on the events. -/
theorem aFaultRepeatsUntilReset : Obligations.AFaultRepeatsUntilReset := by
  unfold Obligations.AFaultRepeatsUntilReset
  intro s keys r f h
  refine ⟨transition_of_fault h, fun es hes => ?_⟩
  have hsame := transitions_same_of_fault h hes
  exact ⟨hsame, hsame.step_fault h⟩

/-! ## Tick (60_exceptions R172, R173) -/

theorem timerDown_toNat (t : Byte) : (timerDown t).toNat = t.toNat - 1 := by
  unfold timerDown
  split
  · next h => rw [h]; rfl
  · bv_omega

/-- Settles O25: the timers as numbers and the beep; the rest of the state is not written. -/
theorem tickCountsTheTimersDown : Obligations.TickCountsTheTimersDown := by
  unfold Obligations.TickCountsTheTimersDown
  refine fun s => ⟨tick s, rfl, timerDown_toNat s.DT, timerDown_toNat s.ST, ?beep, rfl⟩
  rw [tick_report, Bool.beq_eq_decide_eq]
  simp [← BitVec.toNat_inj]

theorem reboot_next {program : List Byte} {s t : State} (h : reboot program s = .next t) :
    t = s.boot program := by
  unfold reboot at h
  split at h <;> cases h
  rfl

theorem Completion.report_ne_ticked {i : Instr} {s t : State} (h : Completion s i t) (beep : Bool) :
    t.report ≠ .ticked beep := by
  cases h <;> simp

/-- Settles O26: an instruction reports no Tick, a Reset reports itself, and a Tick beeps at ST = 1. -/
theorem beepsComeOnlyFromATickAtOne : Obligations.BeepsComeOnlyFromATickAtOne := by
  unfold Obligations.BeepsComeOnlyFromATickAtOne
  intro e s t h
  cases e with
  | reset program =>
    obtain rfl := reboot_next h
    simp
  | step keys r =>
    obtain ⟨op, -, hexec⟩ := cycle_next h
    simp [(completion_of_exec hexec).report_ne_ticked true]
  | tick =>
    cases h
    simp

/-- Settles O27: by induction on the number of Ticks, the first of which takes one off each timer. -/
theorem timersDecayToZeroAndStay : Obligations.TimersDecayToZeroAndStay := by
  unfold Obligations.TimersDecayToZeroAndStay
  intro n
  induction n with
  | zero => exact fun s => ⟨s, rfl, rfl, rfl, rfl⟩
  | succ n ih =>
    intro s
    obtain ⟨t, hrun, hDT, hST, hrest⟩ := ih (tick s)
    rw [tick_DT, timerDown_toNat] at hDT
    rw [tick_ST, timerDown_toNat] at hST
    exact ⟨t, hrun, by omega, by omega, hrest⟩

/-! ## A Tick before an instruction (60_exceptions R172, 70_reset_and_hazards R197) -/

/-- The state one tick later, with the result port as it was. -/
def State.tickKeepingReport (s : State) : State := { tick s with report := s.report }

theorem withData_tick {s t u : State} {i : Instr} {n : Nat} (h : withData s i n (.next u) = .next t) :
    withData (tick s) i n (.next u.tickKeepingReport) = .next t.tickKeepingReport := by
  obtain ⟨hI, rfl⟩ := (withData_next_iff ..).1 h
  exact withData_ok _ _ _ _ hI

theorem exec_ldVxK_of_lowestKey (x : Reg) {s : State} {k : Reg} (h : s.lowestKey = some k) :
    exec (.ldVxK x) s = .next (s.setV x (keyByte k)).advance := by
  simp only [exec, execLdVxK, h, finishReg]

/-- Settles O28: no guard and no operand of the instruction is a timer, so it writes the same after a Tick. -/
theorem ticksCommuteWithInstructionsThatNameNoTimer :
    Obligations.TicksCommuteWithInstructionsThatNameNoTimer := by
  unfold Obligations.TicksCommuteWithInstructionsThatNameNoTimer
  intro i s t hi h
  cases i with
  | ldVxDt x => exact absurd rfl (hi x).1
  | ldDtVx x => exact absurd rfl (hi x).2.1
  | ldStVx x => exact absurd rfl (hi x).2.2
  | ret =>
    rcases exec_ret_cases s with ⟨-, hx⟩ | ⟨hsp, hx⟩ <;> rw [hx] at h <;> cases h
    exact exec_ret_of_used (s := tick s) hsp
  | call nnn =>
    rcases exec_call_cases nnn s with ⟨-, hx⟩ | ⟨hsp, hx⟩ <;> rw [hx] at h <;> cases h
    exact exec_call_of_free (s := tick s) nnn hsp
  | ldVxK x =>
    rcases exec_ldVxK_cases x s with ⟨hnone, hx⟩ | ⟨k, -, hk, hx⟩ <;> rw [hx] at h <;> cases h
    · exact exec_ldVxK_of_none x (s := tick s) hnone
    · exact exec_ldVxK_of_lowestKey x (s := tick s) hk
  | drw | ldB | stRegs | ldRegs => exact withData_tick h
  | _ => cases h; rfl

/-! ## The Step (60_exceptions R161, 70_reset_and_hazards R198) -/

theorem cycle_of_decode {s : State} {i : Instr} (hpc : s.pc.toNat < 0xFFF)
    (h : decode (s.M.readBytes s.pc.toNat 2) = .ok (i, [])) : cycle s = exec i s := by
  cases h
  exact cycle_of_fetch ((s.fetch_ok_iff _).2 ⟨hpc, rfl⟩)

theorem step_of_schedule_nil {s : State} (h : s.schedule = []) : step s = cycle { s with rnd := none } := by
  simp [step, h]

theorem step_of_schedule_cons {s : State} {e : HostEvent} {rest : List HostEvent}
    (h : s.schedule = e :: rest) : step s = hostMove e { s with schedule := rest } := by
  simp [step, h]

/-- Settles O6: neither the schedule nor the sampled inputs change what is fetched and decoded. -/
theorem stepRunsTheDecodedInstruction : Obligations.StepRunsTheDecodedInstruction := by
  unfold Obligations.StepRunsTheDecodedInstruction
  refine fun s i _ hpc hdecode => ⟨fun h => ?unscheduled, fun keys r rest h => ?scheduled⟩
  case unscheduled =>
    rw [step_of_schedule_nil h]
    exact cycle_of_decode hpc hdecode
  case scheduled =>
    rw [step_of_schedule_cons h]
    exact cycle_of_decode (s := ({ s with schedule := rest } : State).sample keys r) hpc hdecode

end Sys2Proof.Machine

namespace Sys2Proof.Machine

/-! PROOFS. The two statements of 70_reset_and_hazards: what a scheduled Tick or Reset does as a step, and
for which images a Reset is defined. -/

/-- Settles O7: a scheduled event is the step, and a Reset of an image that fits boots it. -/
theorem scheduledTicksAndResetsRunNoInstruction : Obligations.ScheduledTicksAndResetsRunNoInstruction := by
  unfold Obligations.ScheduledTicksAndResetsRunNoInstruction
  refine fun s rest => ⟨fun h => ?tick, fun program h hfits => ?reset⟩
  case tick =>
    rw [step_of_schedule_cons h]
    rfl
  case reset =>
    rw [step_of_schedule_cons h]
    exact reboot_of_fits hfits _

theorem reboot_of_too_long {program : List Byte} (h : 3584 < program.length) (s : State) :
    reboot program s = .refused (.imageTooLong program.length) := if_neg (Nat.not_le.2 h)

/-- The empty image leaves the start state, but for what is outside the core (log 1, 21). -/
theorem State.boot_nil (s : State) :
    s.boot [] = { State.reset with draws := s.draws, schedule := s.schedule } := rfl

/-- Settles O24: the length of the image alone decides whether a Reset boots it. -/
theorem resetIsDefinedForImagesThatFit : Obligations.ResetIsDefinedForImagesThatFit := by
  unfold Obligations.ResetIsDefinedForImagesThatFit
  refine ⟨fun s program h => ⟨s.boot program, reboot_of_fits h s⟩, fun s program h => reboot_of_too_long h s,
    fun s => ?empty⟩
  case empty =>
    rw [← s.boot_nil]
    exact reboot_of_fits (Nat.zero_le _) s

end Sys2Proof.Machine
